-- ==== Sys2Proof/Word.lean ====
section
/-! DEFINITION. The value types of the JCPU core (spec/00_scope.md R8, spec/10_state.md R21). -/

namespace Sys2Proof

/-- Every register, the Bus and every memory cell hold 16 bits (R7 XLEN, R8). -/
abbrev Word := BitVec 16

/-- A byte of the program image; the core itself never addresses one (R51, R55). -/
abbrev Byte := BitVec 8

end Sys2Proof
end

