-- ==== Sys2Proof/Machine/Flags.lean ====
section
/-! DEFINITION. The ALU's arithmetic, which computes no flag (R170, R175), and the two polled conditions, which are
never set (R29, R209). -/

namespace Sys2Proof

/-- What the ALU forms from A and B: the difference or the sum modulo 2^16 (R102, R170). No carry, borrow or overflow
comes out of it and no flag is written. -/
def aluResult (subtract : Bool) (a b : Word) : Word :=
  if subtract then a - b else a + b

/-- The conditions the conditional jumps are gated on (R182, R183). -/
inductive Condition where
  | zero | carry
deriving DecidableEq, Repr

/-- Polling a condition yields "not set" always, whatever FL holds (R209, R182, R183; log entry 16). -/
def Condition.isSet : Condition → (fl : Word) → Bool
  | .zero, _ => false
  | .carry, _ => false

end Sys2Proof
end

