-- ==== Sys2Proof/Syntax.lean ====
section
/-! DEFINITION. Names: the nine registers, the control signals, control words, the microcode ROM's type, and the
instruction set, one constructor per row of spec/opcode_table.json. -/

namespace Sys2Proof

/-- The nine registers of the Register Bank, in the source's order (R20). The list is closed (R38). -/
inductive Reg where
  | ir | pc | acc | adr | adb | a | b | io | fl
deriving DecidableEq, Repr

/-- Every register, in index order (R20). -/
def Reg.all : List Reg := [.ir, .pc, .acc, .adr, .adb, .a, .b, .io, .fl]

/-- The 27 control signals (R90). -/
inductive Signal where
  /-- DRV_r: register r's value goes onto the Bus (R97). -/
  | drv (r : Reg)
  /-- LAT_r: register r takes the Bus value (R98). -/
  | lat (r : Reg)
  /-- ALU_EN: the stored `sum` goes onto the Bus (R103). -/
  | aluEn
  /-- MEM_DRV: the cell at ADR goes onto the Bus (R97). -/
  | memDrv
  /-- MEM_LAT: the cell at ADR takes the Bus value (R100). -/
  | memLat
  /-- PER_DRV: the peripheral B selects drives the Bus (R97). -/
  | perDrv
  /-- PER_LAT: the peripheral ADR selects takes the Bus value (R101). -/
  | perLat
  /-- SUB: read one tick early by the ALU lookahead, no effect when asserted (R104). -/
  | sub
  /-- PCI: PC is incremented (R99). -/
  | pci
  /-- HLT: the machine halts (R106). -/
  | hlt
  /-- DEC: the decode point (R105). -/
  | dec
deriving DecidableEq, Repr

/-- A control word: the signals asserted together in one tick, read as a set through `ControlWord.has` (R91). -/
abbrev ControlWord := List Signal

/-- `w has S` of R9. -/
def ControlWord.has (w : ControlWord) (x : Signal) : Bool := w.contains x

/-- The microcode ROM, UCODE of R7: opcode to the entry's control words, at most one row per opcode (R112). -/
abbrev Ucode := List (Word × List ControlWord)

/-- The instructions. Every one carries its operand cell `opd`, used or not (R70, R80). -/
inductive Instr where
  /-- `NOP`, opcode 0x0000 (R193). -/
  | nop (opd : Word)
  /-- `HLT`, opcode 0x0001 (R194). -/
  | hlt (opd : Word)
  /-- `MOV ACC,ADR`, opcode 0x0123 (R131). -/
  | movAccAdr (opd : Word)
  /-- `MOV ACC,A`, opcode 0x0125 (R132). -/
  | movAccA (opd : Word)
  /-- `MOV ACC,B`, opcode 0x0126 (R133). -/
  | movAccB (opd : Word)
  /-- `MOV ACC,IO`, opcode 0x0127 (R134). -/
  | movAccIo (opd : Word)
  /-- `MOV ADR,ACC`, opcode 0x0132 (R135). -/
  | movAdrAcc (opd : Word)
  /-- `MOV ADR,A`, opcode 0x0135 (R136). -/
  | movAdrA (opd : Word)
  /-- `MOV ADR,B`, opcode 0x0136 (R137). -/
  | movAdrB (opd : Word)
  /-- `MOV ADR,IO`, opcode 0x0137 (R138). -/
  | movAdrIo (opd : Word)
  /-- `MOV A,ACC`, opcode 0x0152 (R139). -/
  | movAAcc (opd : Word)
  /-- `MOV A,ADR`, opcode 0x0153 (R140). -/
  | movAAdr (opd : Word)
  /-- `MOV A,B`, opcode 0x0156 (R141). -/
  | movAB (opd : Word)
  /-- `MOV A,IO`, opcode 0x0157 (R142). -/
  | movAIo (opd : Word)
  /-- `MOV B,ACC`, opcode 0x0162 (R143). -/
  | movBAcc (opd : Word)
  /-- `MOV B,ADR`, opcode 0x0163 (R144). -/
  | movBAdr (opd : Word)
  /-- `MOV B,A`, opcode 0x0165 (R145). -/
  | movBA (opd : Word)
  /-- `MOV B,IO`, opcode 0x0167 (R146). -/
  | movBIo (opd : Word)
  /-- `MOV IO,ACC`, opcode 0x0172 (R147). -/
  | movIoAcc (opd : Word)
  /-- `MOV IO,ADR`, opcode 0x0173 (R148). -/
  | movIoAdr (opd : Word)
  /-- `MOV IO,A`, opcode 0x0175 (R149). -/
  | movIoA (opd : Word)
  /-- `MOV IO,B`, opcode 0x0176 (R150). -/
  | movIoB (opd : Word)
  /-- `LD ACC,[opd]`, opcode 0x0202 (R152). -/
  | ldAcc (opd : Word)
  /-- `LD ADR,[opd]`, opcode 0x0203 (R153). -/
  | ldAdr (opd : Word)
  /-- `LD A,[opd]`, opcode 0x0205 (R154). -/
  | ldA (opd : Word)
  /-- `LD B,[opd]`, opcode 0x0206 (R155). -/
  | ldB (opd : Word)
  /-- `LD IO,[opd]`, opcode 0x0207 (R156). -/
  | ldIo (opd : Word)
  /-- `LDI ACC,#opd`, opcode 0x0302 (R157). -/
  | ldiAcc (opd : Word)
  /-- `LDI ADR,#opd`, opcode 0x0303 (R158). -/
  | ldiAdr (opd : Word)
  /-- `LDI A,#opd`, opcode 0x0305 (R159). -/
  | ldiA (opd : Word)
  /-- `LDI B,#opd`, opcode 0x0306 (R160). -/
  | ldiB (opd : Word)
  /-- `LDI IO,#opd`, opcode 0x0307 (R161). -/
  | ldiIo (opd : Word)
  /-- `ST ACC,[opd]`, opcode 0x0402 (R162). -/
  | stAcc (opd : Word)
  /-- `ST ADR,[opd]`, opcode 0x0403 (R163). -/
  | stAdr (opd : Word)
  /-- `ST A,[opd]`, opcode 0x0405 (R164). -/
  | stA (opd : Word)
  /-- `ST B,[opd]`, opcode 0x0406 (R165). -/
  | stB (opd : Word)
  /-- `ST IO,[opd]`, opcode 0x0407 (R166). -/
  | stIo (opd : Word)
  /-- `ADD`, opcode 0x0500 (R171). -/
  | add (opd : Word)
  /-- `SUB`, opcode 0x0501 (R172). -/
  | sub (opd : Word)
  /-- `ADDM [opd]`, opcode 0x0502 (R173). -/
  | addm (opd : Word)
  /-- `SUBM [opd]`, opcode 0x0503 (R174). -/
  | subm (opd : Word)
  /-- `JMP opd`, opcode 0x0600 (R181). -/
  | jmp (opd : Word)
  /-- `JZ opd`, opcode 0x0601 (R182). -/
  | jz (opd : Word)
  /-- `JC opd`, opcode 0x0602 (R183). -/
  | jc (opd : Word)
  /-- `IN`, opcode 0x0700 (R188). -/
  | inp (opd : Word)
  /-- `OUT`, opcode 0x0701 (R189). -/
  | out (opd : Word)
deriving DecidableEq, Repr

end Sys2Proof
end

