-- ==== Sys2Proof/Decode.lean ====
section
/-! DEFINITION. The instruction decoder and encoder, from the opcode map of spec/30_encoding.md R70 to R82, and the
reference bit layout of a control word (spec/40_sequencer.md R92). -/

namespace Sys2Proof

/-- A cell from two image bytes, the lower offset less significant (R55; G2, PRESUMED: log entry 23). -/
def cellOfBytes (lo hi : Byte) : Word := hi ++ lo

/-- The two image bytes of a cell, lower offset first (R55). -/
def bytesOfCell (v : Word) : List Byte := [v.extractLsb' 0 8, v.extractLsb' 8 8]

/-- Why a decode is rejected. -/
inductive DecodeReject where
  /-- The opcode cell is none of the 46 opcodes (R79). -/
  | invalidOpcode (opcode : Word)
  /-- Fewer than the four bytes of an Instruction Word (R70). -/
  | truncated (available : Nat)
deriving DecidableEq, Repr

/-- A row of the opcode map: an opcode and the instruction it selects, which then takes the operand cell. -/
abbrev OpcodeRow := Word × (Word → Instr)

/-- The rows of NOP and HLT (R78). -/
def systemOpcodes : List OpcodeRow :=
  [(0x0000, .nop), (0x0001, .hlt)]

/-- The rows of MOV (R76). -/
def moveOpcodes : List OpcodeRow :=
  [(0x0123, .movAccAdr), (0x0125, .movAccA), (0x0126, .movAccB), (0x0127, .movAccIo),
   (0x0132, .movAdrAcc), (0x0135, .movAdrA), (0x0136, .movAdrB), (0x0137, .movAdrIo),
   (0x0152, .movAAcc), (0x0153, .movAAdr), (0x0156, .movAB), (0x0157, .movAIo),
   (0x0162, .movBAcc), (0x0163, .movBAdr), (0x0165, .movBA), (0x0167, .movBIo),
   (0x0172, .movIoAcc), (0x0173, .movIoAdr), (0x0175, .movIoA), (0x0176, .movIoB)]

/-- The rows of LD, LDI and ST (R77). -/
def memoryOpcodes : List OpcodeRow :=
  [(0x0202, .ldAcc), (0x0203, .ldAdr), (0x0205, .ldA), (0x0206, .ldB),
   (0x0207, .ldIo), (0x0302, .ldiAcc), (0x0303, .ldiAdr), (0x0305, .ldiA),
   (0x0306, .ldiB), (0x0307, .ldiIo), (0x0402, .stAcc), (0x0403, .stAdr),
   (0x0405, .stA), (0x0406, .stB), (0x0407, .stIo)]

/-- The rows of the arithmetic, jump and input-output opcodes (R78). -/
def otherOpcodes : List OpcodeRow :=
  [(0x0500, .add), (0x0501, .sub), (0x0502, .addm), (0x0503, .subm),
   (0x0600, .jmp), (0x0601, .jz), (0x0602, .jc), (0x0700, .inp),
   (0x0701, .out)]

/-- The opcode map (R75). -/
def opcodeTable : List OpcodeRow :=
  systemOpcodes ++ moveOpcodes ++ memoryOpcodes ++ otherOpcodes

/-- The row of the opcode map whose opcode is `op`: all 16 bits are compared (R73). -/
def lookupOpcode (op : Word) : List OpcodeRow → Option (Word → Instr)
  | [] => none
  | row :: rest => if row.1 = op then some row.2 else lookupOpcode op rest

/-- The instruction of an opcode cell and an operand cell (R70, R71, R73, R79). -/
def decodeCells (opcode opd : Word) : Except DecodeReject Instr :=
  match lookupOpcode opcode opcodeTable with
  | some mk => .ok (mk opd)
  | none => .error (.invalidOpcode opcode)

/-- The instruction at the head of a list of image bytes, and the bytes behind it (R70, R83). -/
def decodeBytes : List Byte → Except DecodeReject (Instr × List Byte)
  | b0 :: b1 :: b2 :: b3 :: rest =>
    match decodeCells (cellOfBytes b0 b1) (cellOfBytes b2 b3) with
    | .ok i => .ok (i, rest)
    | .error e => .error e
  | bs => .error (.truncated bs.length)

/-- The opcode cell of an instruction (R75 to R78). -/
def Instr.opcode : Instr → Word
  | .nop _ => 0x0000
  | .hlt _ => 0x0001
  | .movAccAdr _ => 0x0123
  | .movAccA _ => 0x0125
  | .movAccB _ => 0x0126
  | .movAccIo _ => 0x0127
  | .movAdrAcc _ => 0x0132
  | .movAdrA _ => 0x0135
  | .movAdrB _ => 0x0136
  | .movAdrIo _ => 0x0137
  | .movAAcc _ => 0x0152
  | .movAAdr _ => 0x0153
  | .movAB _ => 0x0156
  | .movAIo _ => 0x0157
  | .movBAcc _ => 0x0162
  | .movBAdr _ => 0x0163
  | .movBA _ => 0x0165
  | .movBIo _ => 0x0167
  | .movIoAcc _ => 0x0172
  | .movIoAdr _ => 0x0173
  | .movIoA _ => 0x0175
  | .movIoB _ => 0x0176
  | .ldAcc _ => 0x0202
  | .ldAdr _ => 0x0203
  | .ldA _ => 0x0205
  | .ldB _ => 0x0206
  | .ldIo _ => 0x0207
  | .ldiAcc _ => 0x0302
  | .ldiAdr _ => 0x0303
  | .ldiA _ => 0x0305
  | .ldiB _ => 0x0306
  | .ldiIo _ => 0x0307
  | .stAcc _ => 0x0402
  | .stAdr _ => 0x0403
  | .stA _ => 0x0405
  | .stB _ => 0x0406
  | .stIo _ => 0x0407
  | .add _ => 0x0500
  | .sub _ => 0x0501
  | .addm _ => 0x0502
  | .subm _ => 0x0503
  | .jmp _ => 0x0600
  | .jz _ => 0x0601
  | .jc _ => 0x0602
  | .inp _ => 0x0700
  | .out _ => 0x0701

/-- The operand cell of an instruction (R72). -/
def Instr.operand : Instr → Word
  | .nop opd => opd
  | .hlt opd => opd
  | .movAccAdr opd => opd
  | .movAccA opd => opd
  | .movAccB opd => opd
  | .movAccIo opd => opd
  | .movAdrAcc opd => opd
  | .movAdrA opd => opd
  | .movAdrB opd => opd
  | .movAdrIo opd => opd
  | .movAAcc opd => opd
  | .movAAdr opd => opd
  | .movAB opd => opd
  | .movAIo opd => opd
  | .movBAcc opd => opd
  | .movBAdr opd => opd
  | .movBA opd => opd
  | .movBIo opd => opd
  | .movIoAcc opd => opd
  | .movIoAdr opd => opd
  | .movIoA opd => opd
  | .movIoB opd => opd
  | .ldAcc opd => opd
  | .ldAdr opd => opd
  | .ldA opd => opd
  | .ldB opd => opd
  | .ldIo opd => opd
  | .ldiAcc opd => opd
  | .ldiAdr opd => opd
  | .ldiA opd => opd
  | .ldiB opd => opd
  | .ldiIo opd => opd
  | .stAcc opd => opd
  | .stAdr opd => opd
  | .stA opd => opd
  | .stB opd => opd
  | .stIo opd => opd
  | .add opd => opd
  | .sub opd => opd
  | .addm opd => opd
  | .subm opd => opd
  | .jmp opd => opd
  | .jz opd => opd
  | .jc opd => opd
  | .inp opd => opd
  | .out opd => opd

/-- The 32-bit view of an instruction, `iw = opd ++ opcode` (R71). -/
def encode (i : Instr) : BitVec 32 := i.operand ++ i.opcode

/-- The four image bytes of an instruction (R70, R83). -/
def encodeBytes (i : Instr) : List Byte := bytesOfCell i.opcode ++ bytesOfCell i.operand

/-- The opcode cell of a table word: bits 15..0 of the bits that stand (R71). -/
def tableOpcode (nbits w : Nat) : Word := BitVec.ofNat 16 (w % 2 ^ nbits)

/-- The operand cell of a table word: bits 31..16, zero where the word is shorter (R71). -/
def tableOperand (nbits w : Nat) : Word := BitVec.ofNat 16 (w % 2 ^ nbits / 2 ^ 16)

/-- The instruction the decoder reads from a word of spec/opcode_table.json: its bits above `nbits` are zero, and its
two cells are laid out as four little-endian bytes (R70, R71). -/
def decodeTableWord (nbits w : Nat) : Option Instr :=
  match decodeBytes (bytesOfCell (tableOpcode nbits w) ++ bytesOfCell (tableOperand nbits w)) with
  | .ok (i, _) => some i
  | .error _ => none

/-- The register's index (R20; the spec's D4). -/
def Reg.index : Reg → Nat
  | .ir => 0 | .pc => 1 | .acc => 2 | .adr => 3 | .adb => 4 | .a => 5 | .b => 6 | .io => 7 | .fl => 8

/-- The signal's bit in the reference layout of a control word (R92). -/
def Signal.bit : Signal → Nat
  | .drv r => r.index
  | .lat r => 9 + r.index
  | .aluEn => 18 | .memDrv => 19 | .memLat => 20 | .perDrv => 21 | .perLat => 22
  | .sub => 23 | .pci => 24 | .hlt => 25 | .dec => 26

/-- The 27-bit vector of a control word (R92); nothing observable depends on it. -/
def ControlWord.bits : ControlWord → BitVec 27
  | [] => 0
  | x :: w => BitVec.ofNat 27 (2 ^ x.bit) ||| ControlWord.bits w

end Sys2Proof
end

