-- ==== Sys2Proof/Machine/Microcode.lean ====
section
/-! DEFINITION. The fetch sequence (R109), the entry templates and the reference ROM (R118).
The contents of the ROM are the spec's own (its decisions D5 to D11, D26): log entry 8. -/

namespace Sys2Proof

namespace Fetch

/-- Fetch word 1: save ADR in ADB (R109). -/
def word1 : ControlWord := [.drv .adr, .lat .adb]
/-- Fetch words 2 and 4: PC to ADR (R109). -/
def word2 : ControlWord := [.drv .pc, .lat .adr]
/-- Fetch word 3: the opcode cell to IR, PC up by one, the decode point (R109). -/
def word3 : ControlWord := [.memDrv, .lat .ir, .pci, .dec]
/-- Fetch word 5: the operand cell to IR, PC up by one (R109). -/
def word5 : ControlWord := [.memDrv, .lat .ir, .pci]
/-- Fetch word 6: restore ADR from ADB (R109). -/
def word6 : ControlWord := [.drv .adb, .lat .adr]

/-- The five fetch words behind the first. -/
def rest : List ControlWord := [word2, word3, word2, word5, word6]

/-- FETCH, the fixed six-word sequence (R109). -/
def sequence : List ControlWord := word1 :: rest

end Fetch

namespace Entry

/-- NOP: the empty entry (R193). -/
def nop : List ControlWord := []
/-- HLT (R194). -/
def hlt : List ControlWord := [[.hlt]]
/-- MOV d,s (R130). -/
def mov (d s : Reg) : List ControlWord := [[.drv s, .lat d]]
/-- LD r,[opd] (R151). -/
def ld (r : Reg) : List ControlWord := [[.drv .ir, .lat .adr], [.memDrv, .lat r]]
/-- LDI r,#opd (R151). -/
def ldi (r : Reg) : List ControlWord := [[.drv .ir, .lat r]]
/-- ST r,[opd] (R151). -/
def st (r : Reg) : List ControlWord := [[.drv .ir, .lat .adr], [.drv r, .memLat]]
/-- ADD (R171). -/
def add : List ControlWord := [[.drv .b, .lat .b], [.aluEn, .lat .acc]]
/-- SUB (R172). -/
def sub : List ControlWord := [[.drv .b, .lat .b], [.sub, .aluEn, .lat .acc]]
/-- ADDM [opd] (R173). -/
def addm : List ControlWord := [[.drv .ir, .lat .adr], [.memDrv, .lat .b], [.aluEn, .lat .acc]]
/-- SUBM [opd] (R174). -/
def subm : List ControlWord := [[.drv .ir, .lat .adr], [.memDrv, .lat .b], [.sub, .aluEn, .lat .acc]]
/-- JMP opd (R181). -/
def jmp : List ControlWord := [[.drv .ir, .lat .pc]]
/-- JZ opd: the empty entry, never taken (R182; log entry 16). -/
def jz : List ControlWord := []
/-- JC opd: the empty entry, never taken (R183; log entry 16). -/
def jc : List ControlWord := []
/-- IN (R188). -/
def inp : List ControlWord := [[.perDrv, .lat .io]]
/-- OUT (R189). -/
def out : List ControlWord := [[.drv .acc, .lat .io], [.drv .io, .perLat]]

end Entry

namespace Ucode

/-- The entry of an opcode, if it has one (R105, R112). -/
def entry (op : Word) : Ucode → Option (List ControlWord)
  | [] => none
  | row :: rest => if row.1 = op then some row.2 else entry op rest

/-- The rows of NOP and HLT (R118). -/
def systemRows : Ucode := [(0x0000, Entry.nop), (0x0001, Entry.hlt)]

/-- The rows of MOV d,s (R118, R76). -/
def moveRows : Ucode :=
  [(0x0123, Entry.mov .acc .adr), (0x0125, Entry.mov .acc .a), (0x0126, Entry.mov .acc .b), (0x0127, Entry.mov .acc .io),
   (0x0132, Entry.mov .adr .acc), (0x0135, Entry.mov .adr .a), (0x0136, Entry.mov .adr .b), (0x0137, Entry.mov .adr .io),
   (0x0152, Entry.mov .a .acc), (0x0153, Entry.mov .a .adr), (0x0156, Entry.mov .a .b), (0x0157, Entry.mov .a .io),
   (0x0162, Entry.mov .b .acc), (0x0163, Entry.mov .b .adr), (0x0165, Entry.mov .b .a), (0x0167, Entry.mov .b .io),
   (0x0172, Entry.mov .io .acc), (0x0173, Entry.mov .io .adr), (0x0175, Entry.mov .io .a), (0x0176, Entry.mov .io .b)]

/-- The rows of LD r,[opd] (R118, R77). -/
def loadRows : Ucode :=
  [(0x0202, Entry.ld .acc), (0x0203, Entry.ld .adr), (0x0205, Entry.ld .a), (0x0206, Entry.ld .b),
   (0x0207, Entry.ld .io)]

/-- The rows of LDI r,#opd (R118, R77). -/
def immediateRows : Ucode :=
  [(0x0302, Entry.ldi .acc), (0x0303, Entry.ldi .adr), (0x0305, Entry.ldi .a), (0x0306, Entry.ldi .b),
   (0x0307, Entry.ldi .io)]

/-- The rows of ST r,[opd] (R118, R77). -/
def storeRows : Ucode :=
  [(0x0402, Entry.st .acc), (0x0403, Entry.st .adr), (0x0405, Entry.st .a), (0x0406, Entry.st .b),
   (0x0407, Entry.st .io)]

/-- The rows of the arithmetic, jump and input-output instructions (R118, R78). -/
def otherRows : Ucode :=
  [(0x0500, Entry.add), (0x0501, Entry.sub), (0x0502, Entry.addm), (0x0503, Entry.subm),
   (0x0600, Entry.jmp), (0x0601, Entry.jz), (0x0602, Entry.jc),
   (0x0700, Entry.inp), (0x0701, Entry.out)]

/-- The reference ROM (R118). -/
def reference : Ucode :=
  systemRows ++ moveRows ++ loadRows ++ immediateRows ++ storeRows ++ otherRows

end Ucode

/-- The microcode of an instruction: the reference ROM's entry of its opcode (R112). -/
def Instr.microcode (i : Instr) : List ControlWord := (Ucode.entry i.opcode Ucode.reference).getD []

/-- `k`: how many execute ticks the instruction takes behind the six fetch ticks (R114, R251). -/
def Instr.executeTicks (i : Instr) : Nat := i.microcode.length

end Sys2Proof
end

