-- ==== Sys2Proof/Config.lean ====
section
/-! DEFINITION. The implementation parameters of R7 and the free values.
MEMCELLS and NPORTS are carried beside the state (`State.memCells`, the length of `State.ports`), so that a claim
about every state covers every size; this file names the sizes `State.reset` is built with. -/

namespace Sys2Proof.Config

/-- Smallest and largest MEMCELLS the spec admits (R7). -/
def minMemCells : Nat := 2
def maxMemCells : Nat := 65536

/-- Largest NPORTS the spec admits (R7). -/
def maxPorts : Nat := 65536

/-- MAXWORDS: the longest microcode sequence (R7, R112). -/
def maxWords : Nat := 3

/-- FETCHLEN: the length of the fetch sequence (R7, R109). -/
def fetchLen : Nat := 6

/-- REG_RESET: the reset value of the eight registers other than PC, of `sum` and of every Port Table slot
(R7, R41; the spec's decision D13). DESIGN CHOICE, unsafe: log entries 6 and 7. -/
def regReset : Word := 0

/-- MEMCELLS of the machine `State.reset` is. DESIGN CHOICE, unsafe for claims about that state only: log entry 5. -/
def resetMemCells : Nat := 65536

/-- NPORTS of the machine `State.reset` is. DESIGN CHOICE, unsafe for claims about that state only: log entry 5. -/
def resetPorts : Nat := 1

/-- PC_RESET of the machine `State.reset` is: the entry E = 2 of R237. DESIGN CHOICE, unsafe for claims about that
state only: log entry 5. -/
def resetPc : Word := 0

/-- FREE VALUE: what peripheral `port` presents at the `count`-th PER_DRV tick when the environment's list of values is
used up (R216, U6: any value). It has no body, so no proof can see it. DESIGN CHOICE, safe: log entry 9. -/
opaque peripheralValue : (count port : Nat) → Word

end Sys2Proof.Config
end

