-- ==== Sys2Proof/Machine/State.lean ====
section
/-! DEFINITION. The state of the JCPU core, all of it (spec/10_state.md), as plain data, and the state after reset
(R41, R230). -/

namespace Sys2Proof.Machine

/-- A fatal condition of the running core, with the information it records (R200 to R203). -/
inductive FatalCondition where
  /-- Code 1: the opcode cell at `addr` holds `opcode`, which UCODE does not map (R201). -/
  | invalidOpcode (addr opcode : Word)
  /-- Code 2: a memory access at an address outside memory (R202). -/
  | addressError (addr : Word)
  /-- Code 3: a port access that names no registered peripheral (R203). -/
  | portError (port : Word)
deriving DecidableEq, Repr

/-- An externally visible event, in tick order (R216, R217, R219; log entry 12). -/
inductive Event where
  /-- Peripheral `port` was queried in a PER_DRV tick and presented `value` (R216). -/
  | portRead (port : Nat) (value : Word)
  /-- `Out(port, value)`: the `write()` of a PER_LAT tick (R217). -/
  | portWrite (port : Nat) (value : Word)
  /-- The disconnect hooks, one event for all peripherals (R219). -/
  | disconnect
deriving DecidableEq, Repr

/-- Why a step has no next state: the machine is stopped and no step exists (U18, R222, R253). -/
inductive Fault where
  /-- Raised by every tick, meaning and step of a machine that HLT or teardown halted. Safe: the spec gives no further
  tick (R222). Log entry 10. -/
  | halted
  /-- Raised by every tick, meaning and step of a machine whose fault record holds `c`. Safe: the spec gives no further
  tick (R205). Log entry 10. -/
  | faulted (c : FatalCondition)
deriving DecidableEq, Repr

/-- Why the model gives no meaning. -/
inductive Refusal where
  /-- Raised by `exec` for an instruction without a meaning. Safe. No arm raises it. -/
  | notModelled (mnemonic : String)
  /-- Raised by a tick that pops a control word R93 calls ill-formed, which no ROM of the spec contains. Safe: U5 asks
  for a refusal. Log entry 15. -/
  | illFormedWord (w : ControlWord)
  /-- Raised by the machine configured with a ROM that R93 or R113 calls ill-formed. Safe: R214 asks for it. Log
  entry 15. -/
  | illFormedMicrocode
deriving DecidableEq, Repr

/-- Memory: the cells that hold something else than `Memory.unlisted`, by cell address (R34, R51). The unit is the
16-bit cell, the core's only access (log entry 3). -/
abbrev Memory := List (Nat × Word)

/-- What a cell that is not listed reads as: memory beyond the image is zero (R235, R236; log entry 28). -/
def Memory.unlisted : Word := 0

/-- The canonical form: addresses strictly rising, no entry equal to what an unlisted cell reads as. -/
abbrev Memory.wf (m : Memory) : Prop :=
  m.Pairwise (fun x y => x.1 < y.1) ∧ ∀ c ∈ m, c.2 ≠ Memory.unlisted

/-- The whole state (spec/10_state.md; INVENTORY.md, State). -/
structure State where
  /-- IR, the Instruction register (R22). -/
  ir : Word
  /-- PC, the Program Counter, a cell address (R23). -/
  pc : Word
  /-- ACC, the Accumulator (R24). -/
  acc : Word
  /-- ADR, the Address register (R25). -/
  adr : Word
  /-- ADB, AddressBackup (R26). -/
  adb : Word
  /-- A, the first ALU operand (R27). -/
  a : Word
  /-- B, the second ALU operand (R27). -/
  b : Word
  /-- IO, the data register towards the peripherals (R28). -/
  io : Word
  /-- FL, the Flags register, which nothing writes (R29). -/
  fl : Word
  /-- The Bus, 0 at every tick boundary (R31; log entry 19). -/
  bus : Word
  /-- Q, the control queue, head first (R32). -/
  q : List ControlWord
  /-- The ALU's result latch (R33). -/
  sum : Word
  /-- Mem (R34). -/
  mem : Memory
  /-- MEMCELLS, fixed from start-up on (R7; log entry 4). -/
  memCells : Nat
  /-- Port, one slot per registered peripheral; its length is NPORTS (R35; log entry 4). -/
  ports : List Word
  /-- The run flag (R36). -/
  halted : Bool
  /-- The fault record (R37). -/
  fault : Option FatalCondition
  /-- The externally visible events so far, oldest first (R217, R219, R253; log entry 12). -/
  history : List Event
  /-- The model's own field: what the peripherals present at the next PER_DRV ticks, first one first (R216; log
  entry 9). -/
  inputs : List Word
  /-- The model's own field: how many PER_DRV ticks have completed (R216; log entry 9). -/
  perReads : Nat
deriving DecidableEq, Repr

/-- The state after reset of a machine with `memCells` cells and `nPorts` peripherals, whose loader delivered the memory
`memInit` and the program counter `pcReset` (R41, R230). -/
def State.start (memCells nPorts : Nat) (memInit : Memory) (pcReset : Word) : State where
  ir := Config.regReset
  pc := pcReset
  acc := Config.regReset
  adr := Config.regReset
  adb := Config.regReset
  a := Config.regReset
  b := Config.regReset
  io := Config.regReset
  fl := Config.regReset
  bus := 0
  q := []
  sum := Config.regReset
  mem := memInit
  memCells := memCells
  ports := List.replicate nPorts Config.regReset
  halted := false
  fault := none
  history := []
  inputs := []
  perReads := 0

/-- The machine right after reset, with nothing loaded: an image that is a header alone, entry E = 2 (R41, R230, R237;
log entry 5). -/
def State.reset : State :=
  State.start Config.resetMemCells Config.resetPorts [] Config.resetPc

/-- A machine that ticks: not halted, no fault (R94, R223). -/
abbrev State.Running (s : State) : Prop := s.halted = false ∧ s.fault = none

/-- A running machine between two instructions: its queue is empty (R115, R116). -/
abbrev State.Idle (s : State) : Prop := s.Running ∧ s.q = []

end Sys2Proof.Machine
end

