-- ==== Sys2Proof/Machine/Ops.lean ====
section
/-! DEFINITION. The named operations: reading and writing registers, memory cells and ports, drawing a peripheral's
value, taking a fatal condition, and the host's teardown. -/

namespace Sys2Proof.Machine

/-! ## Memory cells -/

/-- The value of the cell at address `n` (R53): the listed one, else `Memory.unlisted`. -/
def Memory.read : Memory → Nat → Word
  | [], _ => Memory.unlisted
  | c :: m, n => if c.1 = n then c.2 else Memory.read m n

/-- The memory with nothing listed at address `n`. -/
def Memory.erase : Memory → Nat → Memory
  | [], _ => []
  | c :: m, n => if c.1 = n then Memory.erase m n else c :: Memory.erase m n

/-- The memory with `(n, v)` listed before the first higher address. -/
def Memory.insert : Memory → Nat → Word → Memory
  | [], n, v => [(n, v)]
  | c :: m, n, v => if n < c.1 then (n, v) :: c :: m else c :: Memory.insert m n v

/-- The memory after `v` is stored in the cell at address `n` (R54); the canonical form is kept. -/
def Memory.write (m : Memory) (n : Nat) (v : Word) : Memory :=
  if v = Memory.unlisted then m.erase n else (m.erase n).insert n v

/-! ## Registers -/

/-- `x[r]` (R9, R21). -/
def State.reg (s : State) : Reg → Word
  | .ir => s.ir | .pc => s.pc | .acc => s.acc | .adr => s.adr | .adb => s.adb
  | .a => s.a | .b => s.b | .io => s.io | .fl => s.fl

/-- `x[r] <- v` (R9, R21). -/
def State.setReg (s : State) (r : Reg) (v : Word) : State :=
  match r with
  | .ir => { s with ir := v }
  | .pc => { s with pc := v }
  | .acc => { s with acc := v }
  | .adr => { s with adr := v }
  | .adb => { s with adb := v }
  | .a => { s with a := v }
  | .b => { s with b := v }
  | .io => { s with io := v }
  | .fl => { s with fl := v }

/-! ## Memory accesses -/

/-- Is the address in range, read as unsigned (R52; log entry 13)? -/
def State.inMemory (s : State) (addr : Word) : Bool := decide (addr.toNat < s.memCells)

/-- `MemRead(addr, 1)` (R53). -/
def State.memRead (s : State) (addr : Word) : Except FatalCondition Word :=
  if s.inMemory addr then .ok (s.mem.read addr.toNat) else .error (.addressError addr)

/-- The memory after `MemWrite(addr, 1, v)` (R54). -/
def State.memWrite (s : State) (addr v : Word) : Except FatalCondition Memory :=
  if s.inMemory addr then .ok (s.mem.write addr.toNat v) else .error (.addressError addr)

/-! ## Ports -/

/-- NPORTS (R7, R215). -/
def State.nPorts (s : State) : Nat := s.ports.length

/-- Does the port id name a registered peripheral, read as unsigned (R203; log entry 13)? -/
def State.isPort (s : State) (port : Word) : Bool := decide (port.toNat < s.nPorts)

/-- What peripheral `port` presents now: the environment's next value, a free value when there is none (R216, U6;
log entry 9). -/
def State.presented (s : State) (port : Word) : Word :=
  match s.inputs with
  | v :: _ => v
  | [] => Config.peripheralValue s.perReads port.toNat

/-- `PerRead(port)` (R216): the value only; `State.consumeInput` is the draw's effect. -/
def State.perRead (s : State) (port : Word) : Except FatalCondition Word :=
  if s.isPort port then .ok (s.presented port) else .error (.portError port)

/-- The Port Table after `PerWrite(port, v)` (R217). -/
def State.perWrite (s : State) (port v : Word) : Except FatalCondition (List Word) :=
  if s.isPort port then .ok (s.ports.set port.toNat v) else .error (.portError port)

/-! ## Stopping -/

/-- Why no step exists, if none does (R94, R222, R223). -/
def State.stopReason (s : State) : Option Fault :=
  if s.halted then some .halted else s.fault.map .faulted

/-- Is the machine stopped? -/
def State.stopped (s : State) : Bool := s.stopReason.isSome

/-- Taking a fatal condition `c` in a tick that popped its word, leaving `q` behind (R108, R205): the record is set,
every peripheral is disconnected (R219), the Bus ends at 0 (R107), everything else is as at the start of the tick. There
is no handler and no return (R205, R210). Log entries 10 and 11. -/
def State.takeFatal (s : State) (c : FatalCondition) (q : List ControlWord) : State :=
  { s with q := q, bus := 0, fault := some c, history := s.history ++ [.disconnect] }

/-- The cause code of a fatal condition (R206). -/
def FatalCondition.code : FatalCondition → Nat
  | .invalidOpcode _ _ => 1
  | .addressError _ => 2
  | .portError _ => 3

/-- The host's teardown: the same halt path as an in-band HLT (R195, R219, R223; log entry 22). A stopped machine stays
as it is: its peripherals are disconnected already. -/
def State.teardown (s : State) : State :=
  if s.stopped then s else { s with halted := true, history := s.history ++ [.disconnect] }

end Sys2Proof.Machine
end

