-- ==== Sys2Proof/WellFormed.lean ====
section
/-! DEFINITION. Well-formedness of control words (R93), of microcode entries and ROMs (R112, R113).
An `Instr` needs no check: its operand may be any 16-bit value (R72, R80) and its register is part of its opcode (R74). -/

namespace Sys2Proof

/-- The signals that drive the Bus (R93 a). -/
def Signal.drivers : List Signal :=
  Reg.all.map Signal.drv ++ [.aluEn, .memDrv, .perDrv]

/-- R93 (a): at most one Bus driver. -/
def ControlWord.oneDriver (w : ControlWord) : Bool :=
  (Signal.drivers.filter w.has).length ≤ 1

/-- R93 (b): not both directions of memory, nor of the peripherals. -/
def ControlWord.oneDirection (w : ControlWord) : Bool :=
  !(w.has .memDrv && w.has .memLat) && !(w.has .perDrv && w.has .perLat)

/-- R93 (c): not both LAT_PC and PCI. -/
def ControlWord.onePcWrite (w : ControlWord) : Bool :=
  !(w.has (.lat .pc) && w.has .pci)

/-- R93 (d): DEC only with LAT_IR and without LAT_A, LAT_B. -/
def ControlWord.decWithIr (w : ControlWord) : Bool :=
  !w.has .dec || (w.has (.lat .ir) && !w.has (.lat .a) && !w.has (.lat .b))

/-- R93: a well-formed control word. (e) is the last conjunct: not empty. -/
def ControlWord.wf (w : ControlWord) : Bool :=
  w.oneDriver && w.oneDirection && w.onePcWrite && w.decWithIr && !w.isEmpty

/-- Does the word make the ALU recompute (R102)? -/
def ControlWord.latchesOperand (w : ControlWord) : Bool :=
  w.has (.lat .a) || w.has (.lat .b)

namespace Entry

/-- R113 (a): no word of an entry has DEC. -/
def noDec (ws : List ControlWord) : Bool := ws.all fun w => !w.has .dec

/-- R113 (b): a word with HLT is the last of its entry. -/
def hltLast : List ControlWord → Bool
  | [] => true
  | w :: ws => (!w.has .hlt || ws.isEmpty) && hltLast ws

/-- R113 (c): a word with ALU_EN or SUB directly follows a word that latches A or B. `before` says whether the word
before the list did. -/
def lookaheadOk (before : Bool) : List ControlWord → Bool
  | [] => true
  | w :: ws => (!(w.has .aluEn || w.has .sub) || before) && lookaheadOk w.latchesOperand ws

/-- R112, R113: at most three well-formed words meeting (a), (b) and (c). -/
def wf (ws : List ControlWord) : Bool :=
  decide (ws.length ≤ Config.maxWords) && ws.all ControlWord.wf && noDec ws && hltLast ws && lookaheadOk false ws

end Entry

/-- Does no opcode have two rows? UCODE is a function of the opcode (R112). -/
def Ucode.oneRowEach (rom : Ucode) : Bool := decide (rom.map Prod.fst).Nodup

/-- R112, R113: a well-formed ROM. -/
def Ucode.wf (rom : Ucode) : Bool := rom.oneRowEach && rom.all fun row => Entry.wf row.2

end Sys2Proof
end

