-- ==== Sys2Proof/Machine/Tick.lean ====
section
/-! DEFINITION. The tick (spec/40_sequencer.md R94 to R108, R120): one control word, phase by phase, for any microcode
ROM; and runs of ticks. Every phase reads the state at the start of the tick (log entry 14). -/

namespace Sys2Proof.Machine

/-! ## Drive phase (R97) -/

/-- What the driver register, if any, puts on the Bus; `rest` is the value without it. -/
def driveReg (w : ControlWord) (s : State) : List Reg → Word → Word
  | [], rest => rest
  | r :: rs, rest => if w.has (.drv r) then s.reg r else driveReg w s rs rest

/-- The Bus value of the tick (R97, R103): the one driver's value; with no driver the Bus rests at what the last tick
left on it, which is 0 (R107; log entry 19). -/
def driveBus (w : ControlWord) (s : State) : Except FatalCondition Word :=
  if w.has .memDrv then s.memRead s.adr
  else if w.has .perDrv then s.perRead s.b
  else .ok (if w.has .aluEn then s.sum else driveReg w s Reg.all s.bus)

/-! ## Latch and write phases (R98 to R101) -/

/-- The register's value after the latches (R98). -/
def latched (w : ControlWord) (bus : Word) (s : State) (r : Reg) : Word :=
  if w.has (.lat r) then bus else s.reg r

/-- PC after the latches and the increment (R98, R99). -/
def latchedPc (w : ControlWord) (bus : Word) (s : State) : Word :=
  if w.has .pci then s.pc + 1 else latched w bus s .pc

/-- Memory after the write phase (R100). -/
def writeMemory (w : ControlWord) (bus : Word) (s : State) : Except FatalCondition Memory :=
  if w.has .memLat then s.memWrite s.adr bus else .ok s.mem

/-- The Port Table after the write phase (R101). -/
def writePort (w : ControlWord) (bus : Word) (s : State) : Except FatalCondition (List Word) :=
  if w.has .perLat then s.perWrite s.adr bus else .ok s.ports

/-! ## ALU recompute (R102) -/

/-- The lookahead: is a word queued behind this one, and has it SUB? `q` is the queue after the pop. -/
def subtractNext (q : List ControlWord) : Bool :=
  match q with
  | [] => false
  | next :: _ => next.has .sub

/-- `sum` after the tick (R102; log entry 20). -/
def recomputed (w : ControlWord) (bus : Word) (q : List ControlWord) (s : State) : Word :=
  if w.latchesOperand then aluResult (subtractNext q) (latched w bus s .a) (latched w bus s .b) else s.sum

/-! ## Decode point (R105) -/

/-- The queue after the tick: with DEC, the entry of the opcode just latched is appended behind what is left. -/
def decodePoint (rom : Ucode) (w : ControlWord) (bus : Word) (q : List ControlWord) (s : State) :
    Except FatalCondition (List ControlWord) :=
  if w.has .dec then
    match Ucode.entry (latched w bus s .ir) rom with
    | some ws => .ok (q ++ ws)
    | none => .error (.invalidOpcode s.adr (latched w bus s .ir))
  else .ok q

/-! ## Environment (R216, R217, R219) -/

/-- The externally visible events of a tick. -/
def tickEvents (w : ControlWord) (bus : Word) (s : State) : List Event :=
  (if w.has .perDrv then [.portRead s.b.toNat bus] else []) ++
    ((if w.has .perLat then [.portWrite s.adr.toNat bus] else []) ++
      (if w.has .hlt then [.disconnect] else []))

/-- The environment's values left after the tick. -/
def inputsLeft (w : ControlWord) (s : State) : List Word :=
  if w.has .perDrv then s.inputs.tail else s.inputs

/-- The count of port reads after the tick. -/
def readsDone (w : ControlWord) (s : State) : Nat :=
  if w.has .perDrv then s.perReads + 1 else s.perReads

/-! ## The whole tick (R120) -/

/-- The state a tick of word `w` commits, given what its phases answered (R98 to R107). -/
def committed (w : ControlWord) (bus : Word) (mem : Memory) (ports : List Word) (q q' : List ControlWord)
    (s : State) : State where
  ir := latched w bus s .ir
  pc := latchedPc w bus s
  acc := latched w bus s .acc
  adr := latched w bus s .adr
  adb := latched w bus s .adb
  a := latched w bus s .a
  b := latched w bus s .b
  io := latched w bus s .io
  fl := latched w bus s .fl
  bus := 0
  q := q'
  sum := recomputed w bus q s
  mem := mem
  memCells := s.memCells
  ports := ports
  halted := s.halted || w.has .hlt
  fault := s.fault
  history := s.history ++ tickEvents w bus s
  inputs := inputsLeft w s
  perReads := readsDone w s

/-- Assert the popped word `w` with `q` left behind: the committed state, or the fatal condition of the first phase that
raises (R94, R120; the order is R208). -/
def assertWord (rom : Ucode) (w : ControlWord) (q : List ControlWord) (s : State) : Except FatalCondition State :=
  match driveBus w s with
  | .error c => .error c
  | .ok bus =>
    match writeMemory w bus s with
    | .error c => .error c
    | .ok mem =>
      match writePort w bus s with
      | .error c => .error c
      | .ok ports =>
        match decodePoint rom w bus q s with
        | .error c => .error c
        | .ok q' => .ok (committed w bus mem ports q q' s)

/-- One tick of word `w` with `q` left behind: the committed state, or the state a raise leaves (R108). A word R93 calls
ill-formed is refused (U5; log entry 15). -/
def tickWord (rom : Ucode) (w : ControlWord) (q : List ControlWord) (s : State) :
    Host.Outcome State Fault Refusal :=
  if w.wf then
    match assertWord rom w q s with
    | .ok s' => .next s'
    | .error c => .next (s.takeFatal c q)
  else .refused (.illFormedWord w)

/-- One tick (R94, R120): none when the machine is stopped; otherwise refill an empty queue with the fetch sequence
(R95), pop its head (R96) and assert it. -/
def tickWith (rom : Ucode) (s : State) : Host.Outcome State Fault Refusal :=
  match s.stopReason with
  | some r => .fault r
  | none =>
    match s.q with
    | [] => tickWord rom Fetch.word1 Fetch.rest s
    | w :: q => tickWord rom w q s

/-- One tick of the machine with the reference ROM (R118). -/
def tick (s : State) : Host.Outcome State Fault Refusal := tickWith Ucode.reference s

/-- One tick of a machine configured with `rom`: an ill-formed ROM is refused (R214, U5; log entry 15). -/
def configuredTick (rom : Ucode) (s : State) : Host.Outcome State Fault Refusal :=
  if rom.wf then tickWith rom s else .refused .illFormedMicrocode

/-! ## Runs of ticks -/

/-- `n` ticks, or fewer when the machine stops before (R114, R253). -/
def runTicks (rom : Ucode) : Nat → State → Host.Outcome State Fault Refusal
  | 0, s => .next s
  | n + 1, s =>
    match tickWith rom s with
    | .next s' => if s'.stopped then .next s' else runTicks rom n s'
    | .fault r => .fault r
    | .refused r => .refused r

/-- Ticks until the queue is next empty or the machine stops (R116), at most `n`. -/
def runToBoundary (rom : Ucode) : Nat → State → Host.Outcome State Fault Refusal
  | 0, s => .next s
  | n + 1, s =>
    match tickWith rom s with
    | .next s' => if s'.stopped || s'.q.isEmpty then .next s' else runToBoundary rom n s'
    | .fault r => .fault r
    | .refused r => .refused r

/-- More ticks than the rest of the current instruction can take: each queued word is one tick, and a decode appends at
most three words (R112). -/
def ticksLeft (s : State) : Nat := 4 * s.q.length

/-- The most ticks an instruction takes: six fetch words and three microcode words (R114). -/
def maxInstructionTicks : Nat := Config.fetchLen + Config.maxWords

/-! ## The execute ticks of one instruction -/

/-- The execute ticks of an instruction with the operand `opd` and the microcode `entry`, from the state its fetch left
(R116): IR holds the operand and the queue holds exactly the entry (R110; log entry 2). -/
def execute (entry : List ControlWord) (opd : Word) (s : State) : Host.Outcome State Fault Refusal :=
  match s.stopReason with
  | some r => .fault r
  | none => runTicks Ucode.reference entry.length { s with ir := opd, q := entry }

end Sys2Proof.Machine
end

