-- ==== Sys2Proof/Machine/Arithmetic.lean ====
section
/-! DEFINITION. Arithmetic (spec/43_arithmetic.md R170 to R177), each its entry of R118.
A meaning runs from the state the fetch left (R116; log entry 2). -/

namespace Sys2Proof.Machine

/-- `ADD`: ACC takes A + B (R171). -/
def execAdd (opd : Word) (s : State) : Host.Outcome State Fault Refusal :=
  execute Entry.add opd s

/-- `SUB`: ACC takes A - B (R172). -/
def execSub (opd : Word) (s : State) : Host.Outcome State Fault Refusal :=
  execute Entry.sub opd s

/-- `ADDM [opd]`: ADR takes the operand, B the cell it addresses, ACC the sum A + B (R173). -/
def execAddm (opd : Word) (s : State) : Host.Outcome State Fault Refusal :=
  execute Entry.addm opd s

/-- `SUBM [opd]`: ADR takes the operand, B the cell it addresses, ACC the difference A - B (R174). -/
def execSubm (opd : Word) (s : State) : Host.Outcome State Fault Refusal :=
  execute Entry.subm opd s

end Sys2Proof.Machine
end

