-- ==== Sys2Proof/Machine/InOut.lean ====
section
/-! DEFINITION. Input and output (spec/45_io.md R188 to R192), each its entry of R118.
A meaning runs from the state the fetch left (R116; log entry 2). -/

namespace Sys2Proof.Machine

/-- `IN`: IO takes what the peripheral B selects presents (R188). -/
def execInp (opd : Word) (s : State) : Host.Outcome State Fault Refusal :=
  execute Entry.inp opd s

/-- `OUT`: IO takes ACC, then the peripheral ADR selects takes IO (R189). -/
def execOut (opd : Word) (s : State) : Host.Outcome State Fault Refusal :=
  execute Entry.out opd s

end Sys2Proof.Machine
end

