-- ==== Sys2Proof/Machine/Jumps.lean ====
section
/-! DEFINITION. Control transfer (spec/44_jumps.md R180 to R187), each its entry of R118.
A meaning runs from the state the fetch left (R116; log entry 2). -/

namespace Sys2Proof.Machine

/-- `JMP opd`: PC takes the operand (R181). -/
def execJmp (opd : Word) (s : State) : Host.Outcome State Fault Refusal :=
  execute Entry.jmp opd s

/-- `JZ opd`: never taken, no execute tick (R182). -/
def execJz (opd : Word) (s : State) : Host.Outcome State Fault Refusal :=
  execute Entry.jz opd s

/-- `JC opd`: never taken, no execute tick (R183). -/
def execJc (opd : Word) (s : State) : Host.Outcome State Fault Refusal :=
  execute Entry.jc opd s

end Sys2Proof.Machine
end

