-- ==== Sys2Proof/Machine/LoadsStores.lean ====
section
/-! DEFINITION. Memory loads and stores (spec/42_loads_stores.md R151 to R166), each its entry of R118.
A meaning runs from the state the fetch left (R116; log entry 2). -/

namespace Sys2Proof.Machine

/-- `LD ACC,[opd]`: ADR takes the operand, then ACC takes the cell it addresses (R152). -/
def execLdAcc (opd : Word) (s : State) : Host.Outcome State Fault Refusal :=
  execute (Entry.ld .acc) opd s

/-- `LD ADR,[opd]`: ADR takes the operand, then ADR takes the cell it addresses, so ADR ends as the cell's value (R153). -/
def execLdAdr (opd : Word) (s : State) : Host.Outcome State Fault Refusal :=
  execute (Entry.ld .adr) opd s

/-- `LD A,[opd]`: ADR takes the operand, then A takes the cell it addresses; `sum` is recomputed (R154). -/
def execLdA (opd : Word) (s : State) : Host.Outcome State Fault Refusal :=
  execute (Entry.ld .a) opd s

/-- `LD B,[opd]`: ADR takes the operand, then B takes the cell it addresses; `sum` is recomputed (R155). -/
def execLdB (opd : Word) (s : State) : Host.Outcome State Fault Refusal :=
  execute (Entry.ld .b) opd s

/-- `LD IO,[opd]`: ADR takes the operand, then IO takes the cell it addresses (R156). -/
def execLdIo (opd : Word) (s : State) : Host.Outcome State Fault Refusal :=
  execute (Entry.ld .io) opd s

/-- `LDI ACC,#opd`: ACC takes the operand (R157). -/
def execLdiAcc (opd : Word) (s : State) : Host.Outcome State Fault Refusal :=
  execute (Entry.ldi .acc) opd s

/-- `LDI ADR,#opd`: ADR takes the operand (R158). -/
def execLdiAdr (opd : Word) (s : State) : Host.Outcome State Fault Refusal :=
  execute (Entry.ldi .adr) opd s

/-- `LDI A,#opd`: A takes the operand; `sum` is recomputed (R159). -/
def execLdiA (opd : Word) (s : State) : Host.Outcome State Fault Refusal :=
  execute (Entry.ldi .a) opd s

/-- `LDI B,#opd`: B takes the operand; `sum` is recomputed (R160). -/
def execLdiB (opd : Word) (s : State) : Host.Outcome State Fault Refusal :=
  execute (Entry.ldi .b) opd s

/-- `LDI IO,#opd`: IO takes the operand (R161). -/
def execLdiIo (opd : Word) (s : State) : Host.Outcome State Fault Refusal :=
  execute (Entry.ldi .io) opd s

/-- `ST ACC,[opd]`: ADR takes the operand, then the cell it addresses takes ACC's value (R162). -/
def execStAcc (opd : Word) (s : State) : Host.Outcome State Fault Refusal :=
  execute (Entry.st .acc) opd s

/-- `ST ADR,[opd]`: ADR takes the operand, then the cell it addresses takes ADR's value, which is the operand by then (R163). -/
def execStAdr (opd : Word) (s : State) : Host.Outcome State Fault Refusal :=
  execute (Entry.st .adr) opd s

/-- `ST A,[opd]`: ADR takes the operand, then the cell it addresses takes A's value (R164). -/
def execStA (opd : Word) (s : State) : Host.Outcome State Fault Refusal :=
  execute (Entry.st .a) opd s

/-- `ST B,[opd]`: ADR takes the operand, then the cell it addresses takes B's value (R165). -/
def execStB (opd : Word) (s : State) : Host.Outcome State Fault Refusal :=
  execute (Entry.st .b) opd s

/-- `ST IO,[opd]`: ADR takes the operand, then the cell it addresses takes IO's value (R166). -/
def execStIo (opd : Word) (s : State) : Host.Outcome State Fault Refusal :=
  execute (Entry.st .io) opd s

end Sys2Proof.Machine
end

