-- ==== Sys2Proof/Machine/Moves.lean ====
section
/-! DEFINITION. Register-to-register moves (spec/41_moves.md R130 to R150), each its one-word entry of R118.
A meaning runs from the state the fetch left (R116; log entry 2). -/

namespace Sys2Proof.Machine

/-- `MOV ACC,ADR`: ACC takes ADR's value (R131). -/
def execMovAccAdr (opd : Word) (s : State) : Host.Outcome State Fault Refusal :=
  execute (Entry.mov .acc .adr) opd s

/-- `MOV ACC,A`: ACC takes A's value (R132). -/
def execMovAccA (opd : Word) (s : State) : Host.Outcome State Fault Refusal :=
  execute (Entry.mov .acc .a) opd s

/-- `MOV ACC,B`: ACC takes B's value (R133). -/
def execMovAccB (opd : Word) (s : State) : Host.Outcome State Fault Refusal :=
  execute (Entry.mov .acc .b) opd s

/-- `MOV ACC,IO`: ACC takes IO's value (R134). -/
def execMovAccIo (opd : Word) (s : State) : Host.Outcome State Fault Refusal :=
  execute (Entry.mov .acc .io) opd s

/-- `MOV ADR,ACC`: ADR takes ACC's value (R135). -/
def execMovAdrAcc (opd : Word) (s : State) : Host.Outcome State Fault Refusal :=
  execute (Entry.mov .adr .acc) opd s

/-- `MOV ADR,A`: ADR takes A's value (R136). -/
def execMovAdrA (opd : Word) (s : State) : Host.Outcome State Fault Refusal :=
  execute (Entry.mov .adr .a) opd s

/-- `MOV ADR,B`: ADR takes B's value (R137). -/
def execMovAdrB (opd : Word) (s : State) : Host.Outcome State Fault Refusal :=
  execute (Entry.mov .adr .b) opd s

/-- `MOV ADR,IO`: ADR takes IO's value (R138). -/
def execMovAdrIo (opd : Word) (s : State) : Host.Outcome State Fault Refusal :=
  execute (Entry.mov .adr .io) opd s

/-- `MOV A,ACC`: A takes ACC's value; `sum` is recomputed as the sum of A and B (R139). -/
def execMovAAcc (opd : Word) (s : State) : Host.Outcome State Fault Refusal :=
  execute (Entry.mov .a .acc) opd s

/-- `MOV A,ADR`: A takes ADR's value; `sum` is recomputed as the sum of A and B (R140). -/
def execMovAAdr (opd : Word) (s : State) : Host.Outcome State Fault Refusal :=
  execute (Entry.mov .a .adr) opd s

/-- `MOV A,B`: A takes B's value; `sum` is recomputed as the sum of A and B (R141). -/
def execMovAB (opd : Word) (s : State) : Host.Outcome State Fault Refusal :=
  execute (Entry.mov .a .b) opd s

/-- `MOV A,IO`: A takes IO's value; `sum` is recomputed as the sum of A and B (R142). -/
def execMovAIo (opd : Word) (s : State) : Host.Outcome State Fault Refusal :=
  execute (Entry.mov .a .io) opd s

/-- `MOV B,ACC`: B takes ACC's value; `sum` is recomputed as the sum of A and B (R143). -/
def execMovBAcc (opd : Word) (s : State) : Host.Outcome State Fault Refusal :=
  execute (Entry.mov .b .acc) opd s

/-- `MOV B,ADR`: B takes ADR's value; `sum` is recomputed as the sum of A and B (R144). -/
def execMovBAdr (opd : Word) (s : State) : Host.Outcome State Fault Refusal :=
  execute (Entry.mov .b .adr) opd s

/-- `MOV B,A`: B takes A's value; `sum` is recomputed as the sum of A and B (R145). -/
def execMovBA (opd : Word) (s : State) : Host.Outcome State Fault Refusal :=
  execute (Entry.mov .b .a) opd s

/-- `MOV B,IO`: B takes IO's value; `sum` is recomputed as the sum of A and B (R146). -/
def execMovBIo (opd : Word) (s : State) : Host.Outcome State Fault Refusal :=
  execute (Entry.mov .b .io) opd s

/-- `MOV IO,ACC`: IO takes ACC's value (R147). -/
def execMovIoAcc (opd : Word) (s : State) : Host.Outcome State Fault Refusal :=
  execute (Entry.mov .io .acc) opd s

/-- `MOV IO,ADR`: IO takes ADR's value (R148). -/
def execMovIoAdr (opd : Word) (s : State) : Host.Outcome State Fault Refusal :=
  execute (Entry.mov .io .adr) opd s

/-- `MOV IO,A`: IO takes A's value (R149). -/
def execMovIoA (opd : Word) (s : State) : Host.Outcome State Fault Refusal :=
  execute (Entry.mov .io .a) opd s

/-- `MOV IO,B`: IO takes B's value (R150). -/
def execMovIoB (opd : Word) (s : State) : Host.Outcome State Fault Refusal :=
  execute (Entry.mov .io .b) opd s

end Sys2Proof.Machine
end

