-- ==== Sys2Proof/Machine/System.lean ====
section
/-! DEFINITION. System instructions (spec/46_system.md R193 to R195), each its entry of R118.
A meaning runs from the state the fetch left (R116; log entry 2). -/

namespace Sys2Proof.Machine

/-- `NOP`: no execute tick (R193). -/
def execNop (opd : Word) (s : State) : Host.Outcome State Fault Refusal :=
  execute Entry.nop opd s

/-- `HLT`: the machine halts (R194). -/
def execHlt (opd : Word) (s : State) : Host.Outcome State Fault Refusal :=
  execute Entry.hlt opd s

end Sys2Proof.Machine
end

