-- ==== Sys2Proof/Machine/Dispatch.lean ====
section
/-! DEFINITION. One arm per instruction: its meaning. -/

namespace Sys2Proof.Machine

def exec (i : Instr) (s : State) : Host.Outcome State Fault Refusal :=
  match i with
  | .nop opd => Sys2Proof.Machine.execNop opd s
  | .hlt opd => Sys2Proof.Machine.execHlt opd s
  | .movAccAdr opd => Sys2Proof.Machine.execMovAccAdr opd s
  | .movAccA opd => Sys2Proof.Machine.execMovAccA opd s
  | .movAccB opd => Sys2Proof.Machine.execMovAccB opd s
  | .movAccIo opd => Sys2Proof.Machine.execMovAccIo opd s
  | .movAdrAcc opd => Sys2Proof.Machine.execMovAdrAcc opd s
  | .movAdrA opd => Sys2Proof.Machine.execMovAdrA opd s
  | .movAdrB opd => Sys2Proof.Machine.execMovAdrB opd s
  | .movAdrIo opd => Sys2Proof.Machine.execMovAdrIo opd s
  | .movAAcc opd => Sys2Proof.Machine.execMovAAcc opd s
  | .movAAdr opd => Sys2Proof.Machine.execMovAAdr opd s
  | .movAB opd => Sys2Proof.Machine.execMovAB opd s
  | .movAIo opd => Sys2Proof.Machine.execMovAIo opd s
  | .movBAcc opd => Sys2Proof.Machine.execMovBAcc opd s
  | .movBAdr opd => Sys2Proof.Machine.execMovBAdr opd s
  | .movBA opd => Sys2Proof.Machine.execMovBA opd s
  | .movBIo opd => Sys2Proof.Machine.execMovBIo opd s
  | .movIoAcc opd => Sys2Proof.Machine.execMovIoAcc opd s
  | .movIoAdr opd => Sys2Proof.Machine.execMovIoAdr opd s
  | .movIoA opd => Sys2Proof.Machine.execMovIoA opd s
  | .movIoB opd => Sys2Proof.Machine.execMovIoB opd s
  | .ldAcc opd => Sys2Proof.Machine.execLdAcc opd s
  | .ldAdr opd => Sys2Proof.Machine.execLdAdr opd s
  | .ldA opd => Sys2Proof.Machine.execLdA opd s
  | .ldB opd => Sys2Proof.Machine.execLdB opd s
  | .ldIo opd => Sys2Proof.Machine.execLdIo opd s
  | .ldiAcc opd => Sys2Proof.Machine.execLdiAcc opd s
  | .ldiAdr opd => Sys2Proof.Machine.execLdiAdr opd s
  | .ldiA opd => Sys2Proof.Machine.execLdiA opd s
  | .ldiB opd => Sys2Proof.Machine.execLdiB opd s
  | .ldiIo opd => Sys2Proof.Machine.execLdiIo opd s
  | .stAcc opd => Sys2Proof.Machine.execStAcc opd s
  | .stAdr opd => Sys2Proof.Machine.execStAdr opd s
  | .stA opd => Sys2Proof.Machine.execStA opd s
  | .stB opd => Sys2Proof.Machine.execStB opd s
  | .stIo opd => Sys2Proof.Machine.execStIo opd s
  | .add opd => Sys2Proof.Machine.execAdd opd s
  | .sub opd => Sys2Proof.Machine.execSub opd s
  | .addm opd => Sys2Proof.Machine.execAddm opd s
  | .subm opd => Sys2Proof.Machine.execSubm opd s
  | .jmp opd => Sys2Proof.Machine.execJmp opd s
  | .jz opd => Sys2Proof.Machine.execJz opd s
  | .jc opd => Sys2Proof.Machine.execJc opd s
  | .inp opd => Sys2Proof.Machine.execInp opd s
  | .out opd => Sys2Proof.Machine.execOut opd s

end Sys2Proof.Machine
end

