-- ==== Sys2Proof/Machine/Fetch.lean ====
section
/-! DEFINITION. The fetch of one instruction: the six fetch ticks (R109, R110) and the instruction they fetched. -/

namespace Sys2Proof.Machine

/-- How a fetch ended. -/
inductive Fetched where
  /-- The six ticks completed: the instruction, and the state they left (R110). -/
  | instruction (i : Instr) (s : State)
  /-- The machine stopped on the way, or the opcode is none of the 46: this is the whole step's outcome. -/
  | over (o : Host.Outcome State Fault Refusal)

/-- The opcode cell that fetch tick 3 reads: the cell at PC (R65, R110). -/
def opcodeCell (s : State) : Word := s.mem.read s.pc.toNat

/-- The operand cell that fetch tick 5 reads: the cell behind it (R65, R110). -/
def operandCell (s : State) : Word := s.mem.read (s.pc + 1).toNat

/-- Run the six fetch ticks from an empty queue and name the instruction they fetched. The opcode is lost at tick 5
(R246), so it is read from the cell at PC; the operand is what IR holds. The reference ROM has an entry for the 46
opcodes and no other (R118), so the last arm is never taken with it; it runs whatever microcode is queued. -/
def fetchInstruction (s : State) : Fetched :=
  match runTicks Ucode.reference Config.fetchLen s with
  | .next s6 =>
    if s6.stopped then .over (.next s6)
    else
      match decodeCells (opcodeCell s) s6.ir with
      | .ok i => .instruction i s6
      | .error _ => .over (runToBoundary Ucode.reference (ticksLeft s6) s6)
  | .fault r => .over (.fault r)
  | .refused r => .over (.refused r)

/-- The state the six fetch ticks leave when none raises, with the microcode `entry` queued (R110). -/
def afterFetch (s : State) (entry : List ControlWord) : State :=
  { s with ir := operandCell s, pc := s.pc + 2, adb := s.adr, bus := 0, q := entry }

/-- The memory with `v` placed in the cell at `addr`, where there is such a cell. -/
def placeCell (s : State) (addr v : Word) : Memory :=
  if s.inMemory addr then s.mem.write addr.toNat v else s.mem

/-- An instruction's two cells placed where the next fetch reads them, and the queue emptied so that the next tick starts
a fetch (R95, R109; log entry 26). -/
def placeInstruction (s : State) (opcode opd : Word) : State :=
  let s1 := { s with mem := placeCell s s.pc opcode, q := [] }
  { s1 with mem := placeCell s1 (s.pc + 1) opd }

end Sys2Proof.Machine
end

