-- ==== Sys2Proof/Machine/Step.lean ====
section
/-! DEFINITION. One step: from one instruction boundary to the next (R116), made of ticks (log entry 1). -/

namespace Sys2Proof.Machine

/-- One step. A stopped machine has none (U18). At an empty queue a step is one instruction: its fetch, then its meaning
(R116). In the middle of an instruction a step is what is left of it (log entry 21). -/
def step (s : State) : Host.Outcome State Fault Refusal :=
  match s.stopReason with
  | some r => .fault r
  | none =>
    match s.q with
    | [] =>
      match fetchInstruction s with
      | .instruction i s6 => exec i s6
      | .over o => o
    | _ :: _ => runToBoundary Ucode.reference (ticksLeft s) s

/-- The state with a table word placed where the next step fetches (log entries 5 and 26). -/
def State.withFetchWord (s : State) (nbits w : Nat) : State :=
  placeInstruction s (tableOpcode nbits w) (tableOperand nbits w)

end Sys2Proof.Machine
end

