-- ==== Sys2Proof/Machine/Operands.lean ====
section
/-! DEFINITION. The operand forms: what an instruction's operand cell is for (R72, R80), which registers its opcode
names (R74, R76, R77), and which registers it writes and reads (R30). -/

namespace Sys2Proof

/-- The roles of the operand cell (R72, R80). -/
inductive OperandRole where
  | immediate | cellAddress | jumpTarget | ignored
deriving DecidableEq, Repr

/-- The role of an instruction's operand (R72, R75, R80). JZ and JC never use theirs. -/
def Instr.operandRole : Instr → OperandRole
  | .nop _ => .ignored
  | .hlt _ => .ignored
  | .movAccAdr _ => .ignored
  | .movAccA _ => .ignored
  | .movAccB _ => .ignored
  | .movAccIo _ => .ignored
  | .movAdrAcc _ => .ignored
  | .movAdrA _ => .ignored
  | .movAdrB _ => .ignored
  | .movAdrIo _ => .ignored
  | .movAAcc _ => .ignored
  | .movAAdr _ => .ignored
  | .movAB _ => .ignored
  | .movAIo _ => .ignored
  | .movBAcc _ => .ignored
  | .movBAdr _ => .ignored
  | .movBA _ => .ignored
  | .movBIo _ => .ignored
  | .movIoAcc _ => .ignored
  | .movIoAdr _ => .ignored
  | .movIoA _ => .ignored
  | .movIoB _ => .ignored
  | .ldAcc _ => .cellAddress
  | .ldAdr _ => .cellAddress
  | .ldA _ => .cellAddress
  | .ldB _ => .cellAddress
  | .ldIo _ => .cellAddress
  | .ldiAcc _ => .immediate
  | .ldiAdr _ => .immediate
  | .ldiA _ => .immediate
  | .ldiB _ => .immediate
  | .ldiIo _ => .immediate
  | .stAcc _ => .cellAddress
  | .stAdr _ => .cellAddress
  | .stA _ => .cellAddress
  | .stB _ => .cellAddress
  | .stIo _ => .cellAddress
  | .add _ => .ignored
  | .sub _ => .ignored
  | .addm _ => .cellAddress
  | .subm _ => .cellAddress
  | .jmp _ => .jumpTarget
  | .jz _ => .ignored
  | .jc _ => .ignored
  | .inp _ => .ignored
  | .out _ => .ignored

/-- The destination and the source of a MOV (R76, R130). -/
def Instr.moveRegs : Instr → Option (Reg × Reg)
  | .movAccAdr _ => some (.acc, .adr)
  | .movAccA _ => some (.acc, .a)
  | .movAccB _ => some (.acc, .b)
  | .movAccIo _ => some (.acc, .io)
  | .movAdrAcc _ => some (.adr, .acc)
  | .movAdrA _ => some (.adr, .a)
  | .movAdrB _ => some (.adr, .b)
  | .movAdrIo _ => some (.adr, .io)
  | .movAAcc _ => some (.a, .acc)
  | .movAAdr _ => some (.a, .adr)
  | .movAB _ => some (.a, .b)
  | .movAIo _ => some (.a, .io)
  | .movBAcc _ => some (.b, .acc)
  | .movBAdr _ => some (.b, .adr)
  | .movBA _ => some (.b, .a)
  | .movBIo _ => some (.b, .io)
  | .movIoAcc _ => some (.io, .acc)
  | .movIoAdr _ => some (.io, .adr)
  | .movIoA _ => some (.io, .a)
  | .movIoB _ => some (.io, .b)
  | _ => none

/-- The register a direct-address load writes (R77, R151). -/
def Instr.loadReg : Instr → Option Reg
  | .ldAcc _ => some .acc
  | .ldAdr _ => some .adr
  | .ldA _ => some .a
  | .ldB _ => some .b
  | .ldIo _ => some .io
  | _ => none

/-- The register an immediate load writes (R77, R151). -/
def Instr.immediateReg : Instr → Option Reg
  | .ldiAcc _ => some .acc
  | .ldiAdr _ => some .adr
  | .ldiA _ => some .a
  | .ldiB _ => some .b
  | .ldiIo _ => some .io
  | _ => none

/-- The register a store stores (R77, R151). -/
def Instr.storeReg : Instr → Option Reg
  | .stAcc _ => some .acc
  | .stAdr _ => some .adr
  | .stA _ => some .a
  | .stB _ => some .b
  | .stIo _ => some .io
  | _ => none

/-- The registers an instruction's execute ticks latch (R30), from its operand form. ADD and SUB latch B with the value
it has (R171, R172). -/
def Instr.writtenRegs (i : Instr) : List Reg :=
  match i.moveRegs, i.loadReg, i.immediateReg, i.storeReg with
  | some (d, _), _, _, _ => [d]
  | _, some r, _, _ => [.adr, r]
  | _, _, some r, _ => [r]
  | _, _, _, some _ => [.adr]
  | _, _, _, _ =>
    match i with
    | .add _ | .sub _ => [.b, .acc]
    | .addm _ | .subm _ => [.adr, .b, .acc]
    | .jmp _ => [.pc]
    | .inp _ | .out _ => [.io]
    | _ => []

/-- The cell address of an instruction that accesses memory in its execute ticks: the operand, unscaled (R65, R72). -/
def Instr.memoryAddress (i : Instr) : Option Word :=
  match i.operandRole with
  | .cellAddress => some i.operand
  | _ => none

end Sys2Proof
end

