-- ==== Sys2Proof/Machine/Loader.lean ====
section
/-! DEFINITION. The load contract: from a program image to the reset state (R83, R233 to R238), and the image of a
program (R83). -/

namespace Sys2Proof.Machine

/-- Why a load fails; no machine state exists then (R204, R234; log entry 17). -/
inductive LoadError where
  /-- There is no image (R204). -/
  | missing
  /-- Fewer than the four header bytes. -/
  | tooShort
  /-- The marker is not 148. -/
  | badMarker
  /-- An odd number of bytes: half a cell. -/
  | oddLength
  /-- MEMCELLS or NPORTS outside the range of R7. -/
  | badParameters
deriving DecidableEq, Repr

/-- The format marker of the header (R83). -/
def imageMarker : Word := 148

/-- Are MEMCELLS and NPORTS in the ranges of R7? -/
def parametersOk (memCells nPorts : Nat) : Bool :=
  decide (Config.minMemCells ≤ memCells) && decide (memCells ≤ Config.maxMemCells) && decide (nPorts ≤ Config.maxPorts)

/-- The cells of an image body, in order (R235): two bytes a cell, little-endian. -/
def bodyCells : List Byte → List Word
  | lo :: hi :: rest => cellOfBytes lo hi :: bodyCells rest
  | _ => []

/-- The memory holding `cells` from address `n` up, below address `size`; the rest is dropped (R235, R236). -/
def memoryOfCells (size n : Nat) : List Word → Memory
  | [] => []
  | v :: rest =>
    if n < size ∧ v ≠ Memory.unlisted then (n, v) :: memoryOfCells size (n + 1) rest
    else memoryOfCells size (n + 1) rest

/-- MEM_INIT of an image body (R235, R236). -/
def memInit (memCells : Nat) (body : List Byte) : Memory := memoryOfCells memCells 0 (bodyCells body)

/-- PC_RESET of a header's entry point, which counts address units from the start of the image (R237; log entry 18). -/
def pcReset (entry : Word) : Word := entry - 2

/-- The header check and the load (R233 to R237). The header is not copied into memory. -/
def loadBytes (memCells nPorts : Nat) : List Byte → Except LoadError State
  | m0 :: m1 :: e0 :: e1 :: body =>
    if cellOfBytes m0 m1 ≠ imageMarker then .error .badMarker
    else if body.length % 2 = 1 then .error .oddLength
    else .ok (State.start memCells nPorts (memInit memCells body) (pcReset (cellOfBytes e0 e1)))
  | _ => .error .tooShort

/-- Start-up (R223, R230, R233): an image, a memory size and the number of peripherals give the reset state, or a load
error. -/
def load (image : Option (List Byte)) (memCells nPorts : Nat) : Except LoadError State :=
  match image with
  | none => .error .missing
  | some img => if parametersOk memCells nPorts then loadBytes memCells nPorts img else .error .badParameters

/-- The image of a program with the entry point `entry` in its header (R83). -/
def imageOf (entry : Word) (body : List Instr) : List Byte :=
  bytesOfCell imageMarker ++ bytesOfCell entry ++ body.flatMap encodeBytes

/-- The header's entry point of body instruction `i` (R83, R85). -/
def entryOf (i : Nat) : Word := BitVec.ofNat 16 (2 * i + 2)

end Sys2Proof.Machine
end

