-- ==== Sys2Proof/Safety.lean ====
section
/-! DEFINITION. What counts as a sound state and as the end of a run, in the terms claims use. -/

namespace Sys2Proof.Machine

/-- The queue at a tick boundary (R32, R109, R112): what is left of the fetch sequence and, once the decode point of
fetch word 3 is passed, behind it an entry of the reference ROM, which shrinks only when no fetch word is left. -/
def QueueLegal (q : List ControlWord) : Prop :=
  (∃ n, 1 ≤ n ∧ n ≤ 2 ∧ q = Fetch.sequence.drop n) ∨
  (∃ n op ws j, 3 ≤ n ∧ n ≤ Config.fetchLen ∧ Ucode.entry op Ucode.reference = some ws ∧
    (n < Config.fetchLen → j = 0) ∧ q = Fetch.sequence.drop n ++ ws.drop j)

/-- The invariant of the machine with the reference ROM. -/
structure State.Inv (s : State) : Prop where
  /-- Memory keeps its canonical form. -/
  memory : s.mem.wf
  /-- Memory lists only cells that exist (R34). -/
  memoryBound : ∀ c ∈ s.mem, c.1 < s.memCells
  /-- MEMCELLS is in its range (R7). -/
  sizes : Config.minMemCells ≤ s.memCells ∧ s.memCells ≤ Config.maxMemCells
  /-- NPORTS is in its range (R7). -/
  ports : s.nPorts ≤ Config.maxPorts
  /-- The Bus is 0 at every tick boundary (R31, R107). -/
  bus : s.bus = 0
  /-- FL keeps its reset value for ever (R29). -/
  flags : s.fl = Config.regReset
  /-- Fetch precedes execute in the queue (R32). -/
  queue : QueueLegal s.q
  /-- Halted and faulted exclude each other (R211). -/
  oneEnd : s.halted = true → s.fault = none
  /-- Every way the machine stops disconnects the peripherals exactly once (R219). -/
  disconnect : s.history.count .disconnect = if s.stopped then 1 else 0

/-- The state an instruction's last execute tick leaves when only the sequencer's own bookkeeping has happened: IR holds
the operand, the queue is empty, the Bus rests (R107, R110, R116). -/
def State.afterExecute (s : State) (opd : Word) : State := { s with ir := opd, bus := 0, q := [] }

/-- The recompute that follows a latch of `r` in the last word of an entry: never a difference (R102, R177). -/
def State.recomputeSum (s : State) (r : Reg) : State :=
  if r = .a ∨ r = .b then { s with sum := s.a + s.b } else s

/-- The codes of the five registers an opcode may name (R74). -/
def registerCodes : List Nat := [2, 3, 5, 6, 7]

/-- The 46 opcode values, by the formulas of R76, R77 and R78. -/
def IsOpcode (op : Word) : Prop :=
  op.toNat ∈ [0x0000, 0x0001, 0x0500, 0x0501, 0x0502, 0x0503, 0x0600, 0x0601, 0x0602, 0x0700, 0x0701] ∨
  (∃ d ∈ registerCodes, ∃ s ∈ registerCodes, d ≠ s ∧ op.toNat = 0x0100 + 16 * d + s) ∨
  (∃ r ∈ registerCodes, op.toNat = 0x0200 + r ∨ op.toNat = 0x0300 + r ∨ op.toNat = 0x0400 + r)

/-- The successful end of a run (R253). -/
def State.EndedHalted (s : State) : Prop := s.halted = true ∧ s.fault = none

/-- The unsuccessful end of a run (R253). -/
def State.EndedFaulted (s : State) : Prop := s.halted = false ∧ s.fault ≠ none

end Sys2Proof.Machine
end

