-- ==== Sys2Proof/Certificates/Slice0/Obligations.lean ====
section
/-! DEFINITION. The statements for the provers. A tick statement holds for every microcode ROM unless it names the
reference ROM; an `exec` statement starts from the state the fetch left (log entry 2). -/

open Sys2Proof Sys2Proof.Machine

/-! ## Encoding -/

/-- Eight words written out from R70, R71, R76, R77, R78 and R87 decode to the instructions they stand for, two words
outside the map to none, and LDI A,#5 encodes to its four bytes. The opcode numbers are the spec's decision D5: log
entry 8; the byte order within a cell is its general knowledge G2: log entry 23. -/
def Obligations.DecodeReadsWrittenOutWords : Prop :=
  decodeTableWord 32 0x00000000 = some (.nop 0) ∧
  decodeTableWord 32 0x00050305 = some (.ldiA 5) ∧
  decodeTableWord 32 0x00000162 = some (.movBAcc 0) ∧
  decodeTableWord 32 0x00200207 = some (.ldIo 0x20) ∧
  decodeTableWord 32 0x00110402 = some (.stAcc 0x11) ∧
  decodeTableWord 32 0x00100503 = some (.subm 0x10) ∧
  decodeTableWord 32 0x80000600 = some (.jmp 0x8000) ∧
  decodeTableWord 32 0x00000701 = some (.out 0) ∧
  decodeTableWord 32 0x00000122 = none ∧
  decodeTableWord 32 0x00000094 = none ∧
  encodeBytes (.ldiA 5) = [0x05, 0x03, 0x05, 0x00]

/-- Bytes decode to an instruction exactly when they begin with its encoding, and the 32-bit view of an instruction is
read back, for every instruction and every operand (R70, R71, R83). -/
def Obligations.DecodeAndEncodeAgree : Prop :=
  (∀ (bs : List Byte) (i : Instr) (rest : List Byte),
    decodeBytes bs = .ok (i, rest) ↔ bs = encodeBytes i ++ rest) ∧
  (∀ i : Instr, decodeTableWord 32 (encode i).toNat = some i)

/-- The decoder rejects an opcode, and the reference ROM has no entry for it, exactly when it is none of the values the
formulas of R76, R77 and R78 give (R79). The opcode numbers are the spec's decision D5: log entry 8. -/
def Obligations.OpcodesOutsideTheMapAreIllegal : Prop :=
  ∀ op opd : Word,
    (decodeCells op opd = .error (.invalidOpcode op) ↔ ¬ IsOpcode op) ∧
    (Ucode.entry op Ucode.reference = none ↔ ¬ IsOpcode op)

/-- The reference ROM and the fetch words are well-formed (R93, R113, R118). -/
def Obligations.ReferenceRomIsWellFormed : Prop :=
  Ucode.reference.wf = true ∧ Fetch.sequence.all ControlWord.wf = true ∧ Fetch.sequence.length = Config.fetchLen

/-! ## The tick, for any ROM -/

/-- Every tick leaves the Bus at 0, whatever was driven (R107). -/
def Obligations.EveryTickLeavesTheBusAtZero : Prop :=
  ∀ (rom : Ucode) (s t : State), tickWith rom s = .next t → t.bus = 0

/-- Drivers read the state at the start of the tick, then every latch takes the one Bus value; a register not latched
keeps its value but for the increment of PC (R97, R98, R99; the phase order is the spec's decision D3: log entry 14).
The clause about a word without driver has the premise that the Bus rests, which every tick keeps. -/
def Obligations.LatchesTakeTheDriversStartValue : Prop :=
  ∀ (rom : Ucode) (w : ControlWord) (q : List ControlWord) (s t : State) (r : Reg),
    w.wf = true → assertWord rom w q s = .ok t →
    (w.has (.lat r) = true →
      (∀ d, w.has (.drv d) = true → t.reg r = s.reg d) ∧
      (w.has .aluEn = true → t.reg r = s.sum) ∧
      (w.has .memDrv = true → t.reg r = s.mem.read s.adr.toNat) ∧
      (w.has .perDrv = true → t.reg r = s.presented s.b) ∧
      ((∀ x ∈ Signal.drivers, w.has x = false) → s.bus = 0 → t.reg r = 0)) ∧
    (w.has (.lat r) = false → t.reg r = if r = .pc ∧ w.has .pci = true then s.pc + 1 else s.reg r)

/-- SUB has no effect in the tick in which it is asserted; ALU_EN drives the stored `sum`; a latch of A or B recomputes
`sum` with the lookahead at the word queued behind, and nothing else writes it; so the value ACC takes from the ALU is
`A - B` exactly when SUB stands in the word right behind the one that latches B or A (R102, R103, R104; that every latch of
A or B in any word recomputes is the spec's decision D12: log entry 20). -/
def Obligations.AluLooksAheadForSubtract : Prop :=
  (∀ (rom : Ucode) (w : ControlWord) (q : List ControlWord) (s : State),
    assertWord rom (w.filter fun x => decide (x ≠ .sub)) q s = assertWord rom w q s) ∧
  (∀ (rom : Ucode) (w : ControlWord) (q : List ControlWord) (s t : State) (r : Reg),
    w.wf = true → w.has .aluEn = true → driveBus w s = .ok s.sum ∧
      (assertWord rom w q s = .ok t → w.has (.lat r) = true → t.reg r = s.sum)) ∧
  (∀ (rom : Ucode) (w : ControlWord) (q : List ControlWord) (s t : State),
    assertWord rom w q s = .ok t →
      t.sum = if w.has (.lat .a) = true ∨ w.has (.lat .b) = true then
          (if (q.head?.any fun x => x.has .sub) = true then t.a - t.b else t.a + t.b)
        else s.sum) ∧
  (∀ (rom : Ucode) (w w' : ControlWord) (q : List ControlWord) (s t u : State),
    s.Running → s.q = w :: w' :: q → w.has (.lat .a) = true ∨ w.has (.lat .b) = true →
    w'.has .aluEn = true → w'.has (.lat .acc) = true →
    tickWith rom s = .next t → t.Running → tickWith rom t = .next u → u.fault = none →
      u.acc = if w'.has .sub = true then t.a - t.b else t.a + t.b)

/-- MEM_DRV drives the cell at ADR and has no other effect; MEM_LAT stores the Bus in the cell at ADR, read at the start
of the tick, and changes no other cell; both raise AddressError when ADR is out of range (R53, R54). -/
def Obligations.MemorySignalsAccessTheCellAtAdr : Prop :=
  (∀ (rom : Ucode) (q : List ControlWord) (s : State), s.adr.toNat < s.memCells →
    assertWord rom [.memDrv] q s = .ok { s with bus := 0, q := q }) ∧
  ∀ (rom : Ucode) (w : ControlWord) (q : List ControlWord) (s : State), w.wf = true →
    (w.has .memDrv = true → s.adr.toNat < s.memCells →
      driveBus w s = .ok (s.mem.read s.adr.toNat) ∧ ∀ t, assertWord rom w q s = .ok t → t.mem = s.mem) ∧
    (w.has .memDrv = true → s.memCells ≤ s.adr.toNat → assertWord rom w q s = .error (.addressError s.adr)) ∧
    (∀ bus, w.has .memLat = true → driveBus w s = .ok bus → s.adr.toNat < s.memCells →
      (∀ t, assertWord rom w q s = .ok t →
        ∀ n, t.mem.read n = if n = s.adr.toNat then bus else s.mem.read n) ∧
      ((w.has .perLat = true → s.adr.toNat < s.nPorts) → w.has .dec = false → ∃ t, assertWord rom w q s = .ok t)) ∧
    (∀ bus, w.has .memLat = true → driveBus w s = .ok bus → s.memCells ≤ s.adr.toNat →
      assertWord rom w q s = .error (.addressError s.adr))

/-- PER_LAT stores the Bus in the slot of the peripheral ADR names and in no other, and is exactly one output event; it
raises PortError when ADR names no peripheral (R101, R217). -/
def Obligations.PortWriteIsOneOutputEvent : Prop :=
  ∀ (rom : Ucode) (w : ControlWord) (q : List ControlWord) (s : State) (bus : Word), w.wf = true →
    w.has .perLat = true → (w.has .memLat = true → s.adr.toNat < s.memCells) → driveBus w s = .ok bus →
    (s.adr.toNat < s.nPorts →
      (∀ t, assertWord rom w q s = .ok t →
        t.ports = s.ports.set s.adr.toNat bus ∧
        ∃ events, t.history = s.history ++ .portWrite s.adr.toNat bus :: events ∧
          ∀ p v, .portWrite p v ∉ events) ∧
      (w.has .dec = false → ∃ t, assertWord rom w q s = .ok t)) ∧
    (s.nPorts ≤ s.adr.toNat → assertWord rom w q s = .error (.portError s.adr))

/-- The decode point: after the latch of IR the opcode is looked up, and its words are appended behind what is left of
the queue; an opcode without an entry raises InvalidOpcode. Only fetch word 3 has DEC (R105). That the word popped by the
raising tick stays popped is R108 with the spec's decision D17: log entry 11. -/
def Obligations.DecodeAppendsTheEntryAtTheTail : Prop :=
  (∀ (rom : Ucode) (w : ControlWord) (q : List ControlWord) (s : State) (bus : Word),
    s.Running → s.q = w :: q → w.wf = true → w.has .dec = true →
    (w.has .memLat = true → s.adr.toNat < s.memCells) → (w.has .perLat = true → s.adr.toNat < s.nPorts) →
    driveBus w s = .ok bus →
    (∀ ws, Ucode.entry bus rom = some ws →
      ∃ t, tickWith rom s = .next t ∧ t.ir = bus ∧ t.q = q ++ ws ∧ t.fault = none) ∧
    (Ucode.entry bus rom = none →
      ∃ t, tickWith rom s = .next t ∧ t.fault = some (.invalidOpcode s.adr bus) ∧ t.q = q)) ∧
  (∀ w ∈ Fetch.sequence, w.has .dec = true ↔ w = Fetch.word3) ∧
  (∀ rom : Ucode, rom.wf = true → ∀ row ∈ rom, ∀ w ∈ row.2, w.has .dec = false)

/-- HLT halts, keeps the word's other effects and disconnects the peripherals; without HLT no tick halts; a halted
machine never ticks again; the machine after reset is not halted; in the reference ROM the word is HLT alone, the last of
its instruction, so the queue is empty at a halt (R36, R106). -/
def Obligations.HltSignalIsTerminal : Prop :=
  (∀ (rom : Ucode) (w : ControlWord) (q : List ControlWord) (s t : State),
    s.Running → s.q = w :: q → tickWith rom s = .next t →
      (t.halted = true ↔ w.has .hlt = true ∧ t.fault = none)) ∧
  (∀ (rom : Ucode) (w : ControlWord) (q : List ControlWord) (s u : State),
    s.halted = false → w.has .hlt = true → assertWord rom (w.filter fun x => decide (x ≠ .hlt)) q s = .ok u →
      assertWord rom w q s = .ok { u with halted := true, history := u.history ++ [.disconnect] }) ∧
  (∀ (rom : Ucode) (s : State), s.halted = true → tickWith rom s = .fault .halted) ∧
  State.reset.halted = false ∧
  (∀ row ∈ Ucode.reference, ∀ w ∈ row.2, w.has .hlt = true → w = [.hlt] ∧ row.2.getLast? = some w) ∧
  (∀ (i : Instr) (s t : State), exec i s = .next t → t.halted = true → t.q = [])

/-- Which condition a tick raises, and in which order: drive phase, memory write, port write, decode (R201, R202, R203
and R208; the order is the spec's decision D18: log entry 11). -/
def Obligations.FatalConditionsFollowThePhases : Prop :=
  ∀ (rom : Ucode) (w : ControlWord) (q : List ControlWord) (s t : State),
    s.Running → s.q = w :: q → w.wf = true → tickWith rom s = .next t →
    t.fault =
      if w.has .memDrv = true ∧ s.memCells ≤ s.adr.toNat then some (.addressError s.adr)
      else if w.has .perDrv = true ∧ s.nPorts ≤ s.b.toNat then some (.portError s.b)
      else if w.has .memLat = true ∧ s.memCells ≤ s.adr.toNat then some (.addressError s.adr)
      else if w.has .perLat = true ∧ s.nPorts ≤ s.adr.toNat then some (.portError s.adr)
      else
        match driveBus w s with
        | .ok bus =>
          if w.has .dec = true ∧ Ucode.entry bus rom = none then some (.invalidOpcode s.adr bus) else none
        | .error _ => none

/-- A tick that raises commits nothing but the pop, the record and the peripherals' disconnect (R108, R205; the state
left behind is the spec's decision D17, the disconnect its D27: log entry 11). -/
def Obligations.RaisingTickCommitsNothing : Prop :=
  ∀ (rom : Ucode) (w : ControlWord) (q : List ControlWord) (s t : State) (c : FatalCondition),
    s.Running → s.q = w :: q → tickWith rom s = .next t → t.fault = some c →
      t = { s with q := q, bus := 0, fault := some c, history := s.history ++ [.disconnect] }

/-- A stopped machine has no tick, no instruction and no step (R205, R222, R253, U18: log entry 10). -/
def Obligations.StoppedMachineNeverSteps : Prop :=
  ∀ (rom : Ucode) (i : Instr) (s : State), ¬ s.Running →
    ∃ r, (r = .halted ∧ s.halted = true ∨ ∃ c, r = .faulted c ∧ s.fault = some c ∧ s.halted = false) ∧
      tickWith rom s = .fault r ∧ exec i s = .fault r ∧ step s = .fault r

/-- Teardown is the halt path: the machine is halted, the peripherals are disconnected, nothing else changes, and no step
follows (R195, R219; log entry 22). -/
def Obligations.TeardownIsTheHaltPath : Prop :=
  ∀ s : State, s.Running →
    s.teardown = { s with halted := true, history := s.history ++ [.disconnect] } ∧
    step s.teardown = .fault .halted

/-! ## Fetch -/

/-- The net effect of one fetch sequence, for any ROM (R110, from R97 to R99 and R109). -/
def Obligations.FetchSequenceNetEffect : Prop :=
  ∀ (rom : Ucode) (s : State) (ws : List ControlWord),
    s.Idle → s.pc.toNat < s.memCells → (s.pc + 1).toNat < s.memCells →
    Ucode.entry (opcodeCell s) rom = some ws →
      runTicks rom Config.fetchLen s =
        .next { s with ir := s.mem.read (s.pc + 1).toNat, pc := s.pc + 2, adb := s.adr, bus := 0, q := ws }

/-- InvalidOpcode has code 1, is raised at fetch tick 3 when the cell at PC is no key of the ROM (for the reference ROM:
none of the 46 opcodes), records that cell's address and value, and no execute tick raises it (R201). The state left and the
code are the spec's decision D17 (R205, R206), the disconnect event its D27 (R219): log entry 11; the 46 opcodes are its
D5: log entry 8. -/
def Obligations.InvalidOpcodeIsRaisedAtTheDecodePoint : Prop :=
  (∀ (rom : Ucode) (s : State),
    s.Idle → s.pc.toNat < s.memCells → Ucode.entry (opcodeCell s) rom = none →
      runTicks rom Config.fetchLen s =
        .next { s with adb := s.adr, adr := s.pc, bus := 0, q := Fetch.sequence.drop 3,
                       fault := some (.invalidOpcode s.pc (opcodeCell s)), history := s.history ++ [.disconnect] }) ∧
  (∀ op, Ucode.entry op Ucode.reference = none ↔ ¬ IsOpcode op) ∧
  (∀ (i : Instr) (s t : State) (addr op : Word), s.fault = none → exec i s = .next t →
    t.fault ≠ some (.invalidOpcode addr op)) ∧
  (∀ addr op, (FatalCondition.invalidOpcode addr op).code = 1)

/-- AddressError has code 2 and is raised by a tick with MEM_DRV, or with MEM_LAT and a Bus value, whose ADR is out of
range at its start: at fetch tick 3 for PC, at fetch tick 5 for PC + 1, and at the second execute tick of LD, ST, ADDM and
SUBM for the operand; it records the address (R202). What the earlier ticks committed stands; the raising tick commits
nothing. The states left and the code are the spec's decision D17 (R205, R206), the disconnect event its D27 (R219): log
entry 11; the second execute tick of those instructions is the reference ROM's, D6: log entry 8. -/
def Obligations.AddressErrorIsRaisedByEveryAccess : Prop :=
  (∀ (rom : Ucode) (w : ControlWord) (q : List ControlWord) (s : State), w.wf = true → s.memCells ≤ s.adr.toNat →
    w.has .memDrv = true ∨ (w.has .memLat = true ∧ ∃ bus, driveBus w s = .ok bus) →
      assertWord rom w q s = .error (.addressError s.adr)) ∧
  (∀ (rom : Ucode) (s : State), s.Idle → s.memCells ≤ s.pc.toNat →
    runTicks rom Config.fetchLen s =
      .next { s with adb := s.adr, adr := s.pc, bus := 0, q := Fetch.sequence.drop 3,
                     fault := some (.addressError s.pc), history := s.history ++ [.disconnect] }) ∧
  (∀ (rom : Ucode) (s : State) (ws : List ControlWord),
    s.Idle → s.pc.toNat < s.memCells → s.memCells ≤ (s.pc + 1).toNat → Ucode.entry (opcodeCell s) rom = some ws →
    runTicks rom Config.fetchLen s =
      .next { s with ir := opcodeCell s, adb := s.adr, adr := s.pc + 1, pc := s.pc + 1, bus := 0,
                     q := Fetch.sequence.drop 5 ++ ws, fault := some (.addressError (s.pc + 1)),
                     history := s.history ++ [.disconnect] }) ∧
  (∀ (i : Instr) (s : State) (addr : Word),
    s.Running → i.memoryAddress = some addr → s.memCells ≤ addr.toNat →
      exec i s = .next ({ s with ir := i.operand, adr := addr }.takeFatal (.addressError addr) (i.microcode.drop 2))) ∧
  (∀ addr, (FatalCondition.addressError addr).code = 2)

/-- PortError has code 3 and is raised by a tick with PER_DRV whose B, or with PER_LAT and a Bus value whose ADR, names no
registered peripheral at its start: by IN at its execute tick for B and by OUT at its second for ADR; it records the
selector (R203). OUT's first tick has completed by then. The states left and the code are the spec's decision D17 (R205,
R206), the disconnect event its D27 (R219): log entry 11; that OUT's first tick copies ACC to IO is its D10, the other
words of IN and OUT its D6: log entry 8. -/
def Obligations.PortErrorIsRaisedByInAndOut : Prop :=
  (∀ (rom : Ucode) (w : ControlWord) (q : List ControlWord) (s : State), w.wf = true →
    (w.has .perDrv = true → s.nPorts ≤ s.b.toNat → assertWord rom w q s = .error (.portError s.b)) ∧
    (w.has .perLat = true → s.nPorts ≤ s.adr.toNat → (w.has .memLat = true → s.adr.toNat < s.memCells) →
      (∃ bus, driveBus w s = .ok bus) → assertWord rom w q s = .error (.portError s.adr))) ∧
  (∀ (s : State) (opd : Word), s.Running → s.nPorts ≤ s.b.toNat →
    exec (.inp opd) s = .next ({ s with ir := opd }.takeFatal (.portError s.b) [])) ∧
  (∀ (s : State) (opd : Word), s.Running → s.nPorts ≤ s.adr.toNat →
    exec (.out opd) s = .next ({ s with ir := opd, io := s.acc }.takeFatal (.portError s.adr) [])) ∧
  (∀ port, (FatalCondition.portError port).code = 3)

/-- A step at an instruction boundary is the meaning of the instruction whose cells stand at PC and PC + 1, from the
state the fetch leaves (R110, R116). -/
def Obligations.StepRunsTheDecodedInstruction : Prop :=
  ∀ (s : State) (i : Instr),
    s.Idle → s.pc.toNat < s.memCells → (s.pc + 1).toNat < s.memCells →
    decodeCells (opcodeCell s) (operandCell s) = .ok i →
      step s = exec i { s with ir := operandCell s, pc := s.pc + 2, adb := s.adr, bus := 0, q := i.microcode }

/-- A step from an instruction boundary is what the ticks up to the next boundary, or to a halt or a fault, do (R94, R116,
R120): the meanings add nothing to the tick and leave nothing out. -/
def Obligations.StepIsTheTicksOfOneInstruction : Prop :=
  ∀ s : State, s.Idle → step s = runToBoundary Ucode.reference maxInstructionTicks s

/-- An instruction whose entry has k words takes exactly 6 + k ticks when no tick raises, for any well-formed ROM, and is
decoded at its third (R114). -/
def Obligations.InstructionTakesSixPlusKTicks : Prop :=
  ∀ (rom : Ucode) (s t : State) (ws : List ControlWord), rom.wf = true →
    s.Idle → s.pc.toNat < s.memCells → (s.pc + 1).toNat < s.memCells →
    Ucode.entry (opcodeCell s) rom = some ws →
    runTicks rom (Config.fetchLen + ws.length) s = .next t → t.fault = none →
      ws.length ≤ Config.maxWords ∧ t.q = [] ∧
      (∀ n, 0 < n → n < Config.fetchLen + ws.length →
        ∃ u, runTicks rom n s = .next u ∧ u.Running ∧ u.q ≠ []) ∧
      (∃ u, runTicks rom 2 s = .next u ∧ u.q = Fetch.sequence.drop 2) ∧
      (∃ u, runTicks rom 3 s = .next u ∧ u.q = Fetch.sequence.drop 3 ++ ws)

/-- The number of execute ticks of every instruction (R251; the numbers are those of the reference ROM, the spec's
decision D6: log entry 8). -/
def Obligations.ExecuteTicksPerInstruction : Prop :=
  ∀ i : Instr, i.executeTicks =
    match i with
    | .nop _ | .jz _ | .jc _ => 0
    | .hlt _ | .jmp _ | .inp _ => 1
    | .add _ | .sub _ | .out _ => 2
    | .addm _ | .subm _ => 3
    | i => if i.loadReg.isSome || i.storeReg.isSome then 2 else 1

/-! ## What each instruction does (the reference ROM, the spec's decisions D5 to D11: log entry 8) -/

/-- MOV d,s for all twenty pairs: d takes the value s has, `sum` is recomputed as a sum when d is A or B, nothing else
changes (R130 to R150; the recompute is the spec's decision D12: log entry 20). -/
def Obligations.MovesCopyTheSource : Prop :=
  ∀ (i : Instr) (d r : Reg) (s : State), s.Running → i.moveRegs = some (d, r) →
    exec i s = .next (((s.afterExecute i.operand).setReg d (s.reg r)).recomputeSum d)

/-- LDI r,#opd for the five registers: r takes the operand, `sum` is recomputed when r is A or B (R157 to R161; the
recompute is the spec's decision D12: log entry 20). -/
def Obligations.ImmediateLoadsTakeTheOperand : Prop :=
  ∀ (i : Instr) (r : Reg) (s : State), s.Running → i.immediateReg = some r →
    exec i s = .next (((s.afterExecute i.operand).setReg r i.operand).recomputeSum r)

/-- LD r,[opd] for the five registers: ADR takes the operand, then r the cell it addresses, so LD ADR ends with the
cell's value in ADR; `sum` is recomputed when r is A or B (R152 to R156; the recompute is the spec's decision D12:
log entry 20). -/
def Obligations.LoadsTakeTheAddressedCell : Prop :=
  ∀ (i : Instr) (r : Reg) (s : State), s.Running → i.loadReg = some r → i.operand.toNat < s.memCells →
    exec i s = .next ((((s.afterExecute i.operand).setReg .adr i.operand).setReg r
      (s.mem.read i.operand.toNat)).recomputeSum r)

/-- ST r,[opd] for the five registers: ADR takes the operand, then the cell it addresses takes r's value, which for ADR
is the operand; every other cell reads as before and nothing else changes (R162 to R166). -/
def Obligations.StoresWriteTheAddressedCell : Prop :=
  ∀ (i : Instr) (r : Reg) (s : State), s.Running → i.storeReg = some r → i.operand.toNat < s.memCells →
    ∃ m : Memory,
      exec i s = .next { s.afterExecute i.operand with adr := i.operand, mem := m } ∧
      ∀ addr, i.memoryAddress = some addr →
        ∀ n, m.read n = if n = addr.toNat then (if r = .adr then i.operand else s.reg r) else s.mem.read n

/-- ADD and SUB: ACC and `sum` take A + B or A - B modulo 2^16, whatever `sum` held, nothing else changes (R171,
R172). -/
def Obligations.AddAndSubCombineAAndB : Prop :=
  ∀ (s : State) (opd : Word), s.Running →
    exec (.add opd) s = .next { s.afterExecute opd with sum := s.a + s.b, acc := s.a + s.b } ∧
    exec (.sub opd) s = .next { s.afterExecute opd with sum := s.a - s.b, acc := s.a - s.b }

/-- ADDM and SUBM: ADR takes the operand, B the cell it addresses, ACC and `sum` A plus or minus that cell, nothing else
changes (R173, R174). -/
def Obligations.AddmAndSubmCombineAAndTheCell : Prop :=
  ∀ (s : State) (opd v : Word), s.Running → opd.toNat < s.memCells → v = s.mem.read opd.toNat →
    exec (.addm opd) s = .next { s.afterExecute opd with adr := opd, b := v, sum := s.a + v, acc := s.a + v } ∧
    exec (.subm opd) s = .next { s.afterExecute opd with adr := opd, b := v, sum := s.a - v, acc := s.a - v }

/-- JMP: PC takes the operand, nothing else changes, and no range is checked (R181, R185). -/
def Obligations.JmpLoadsPc : Prop :=
  ∀ (s : State) (opd : Word), s.Running → exec (.jmp opd) s = .next { s.afterExecute opd with pc := opd }

/-- JZ and JC are gated on conditions that are never set, whatever FL holds, so they fall through and change nothing
(R182, R183, R209; the spec's decision D9: log entry 16). -/
def Obligations.ConditionalJumpsAreGatedOnConditionsNeverSet : Prop :=
  ∀ (s : State) (opd : Word), s.Running →
    exec (.jz opd) s = .next { s with ir := opd, q := [], pc := if Condition.zero.isSet s.fl then opd else s.pc } ∧
    exec (.jc opd) s = .next { s with ir := opd, q := [], pc := if Condition.carry.isSet s.fl then opd else s.pc } ∧
    Condition.zero.isSet s.fl = false ∧ Condition.carry.isSet s.fl = false

/-- IN: IO takes what the peripheral B selects presents: the environment's next value, whatever it is, or a free value
when there is none; the Port Table and every register but IO keep their values (R188, R192, R216). -/
def Obligations.InLatchesThePresentedValue : Prop :=
  (∀ (s : State) (opd v : Word) (vs : List Word), s.Running → s.b.toNat < s.nPorts → s.inputs = v :: vs →
    exec (.inp opd) s = .next { s.afterExecute opd with
      io := v, inputs := vs, perReads := s.perReads + 1, history := s.history ++ [.portRead s.b.toNat v] }) ∧
  (∀ (s : State) (opd v : Word), s.Running → s.b.toNat < s.nPorts → s.inputs = [] →
    v = Config.peripheralValue s.perReads s.b.toNat →
    exec (.inp opd) s = .next { s.afterExecute opd with
      io := v, perReads := s.perReads + 1, history := s.history ++ [.portRead s.b.toNat v] })

/-- OUT: IO takes ACC, then the slot of the peripheral ADR selects takes it, with one output event; nothing else changes
(R189, R217). -/
def Obligations.OutSendsAccThroughIo : Prop :=
  ∀ (s : State) (opd : Word), s.Running → s.adr.toNat < s.nPorts →
    exec (.out opd) s = .next { s.afterExecute opd with
      io := s.acc, ports := s.ports.set s.adr.toNat s.acc, history := s.history ++ [.portWrite s.adr.toNat s.acc] }

/-- NOP has no effect of its own; HLT halts the machine and disconnects the peripherals, nothing else changes (R193,
R194). -/
def Obligations.NopDoesNothingAndHltHalts : Prop :=
  ∀ (s : State) (opd : Word), s.Running →
    exec (.nop opd) s = .next { s with ir := opd, q := [] } ∧
    exec (.hlt opd) s = .next { s.afterExecute opd with halted := true, history := s.history ++ [.disconnect] }

/-! ## Frames and whole-machine rules -/

/-- Whatever way a meaning ends, a register keeps its value unless R30 lists it as written by the instruction; IR holds
the operand. PC is among the registers kept by every instruction but JMP, FL by every instruction. -/
def Obligations.RegistersOutsideTheWrittenOnesAreKept : Prop :=
  ∀ (i : Instr) (s t : State), exec i s = .next t →
    t.ir = i.operand ∧ (∀ r, r ≠ .ir → r ∉ i.writtenRegs → t.reg r = s.reg r) ∧ t.fl = s.fl

/-- Only a store changes memory, and only the cell at its operand (R65, R151). -/
def Obligations.OnlyStoresChangeMemory : Prop :=
  ∀ (i : Instr) (s t : State), exec i s = .next t →
    (i.storeReg = none → ∀ n, t.mem.read n = s.mem.read n) ∧
    (∀ r addr, i.storeReg = some r → i.memoryAddress = some addr →
      ∀ n, n ≠ addr.toNat → t.mem.read n = s.mem.read n)

/-- The rest of the frame: `sum` changes only with a latch of A or B, the Port Table only by OUT, the environment's
values only by IN, the run flag only by HLT, the sizes never; the history grows only by IN, OUT, HLT or a raise (R30,
R35, R36). -/
def Obligations.EverythingElseIsKept : Prop :=
  ∀ (i : Instr) (s t : State), exec i s = .next t →
    t.memCells = s.memCells ∧ t.nPorts = s.nPorts ∧
    ((Reg.a ∉ i.writtenRegs ∧ Reg.b ∉ i.writtenRegs) → t.sum = s.sum) ∧
    ((∀ opd, i ≠ .out opd) → t.ports = s.ports) ∧
    ((∀ opd, i ≠ .inp opd) → t.inputs = s.inputs ∧ t.perReads = s.perReads) ∧
    (t.halted = true ↔ ∃ opd, i = .hlt opd) ∧
    ((∀ opd, i ≠ .inp opd ∧ i ≠ .out opd ∧ i ≠ .hlt opd) → t.fault = none → t.history = s.history)

/-- Control moves on by two cells unless the instruction is JMP, which moves it to its operand (R180, R186). -/
def Obligations.ControlMovesOnUnlessJmp : Prop :=
  ∀ (s t : State) (i : Instr), s.Idle → step s = .next t → t.fault = none →
    decodeCells (opcodeCell s) (operandCell s) = .ok i →
      t.pc = match i with
        | .jmp opd => opd
        | _ => s.pc + 2

/-- The selectors are two: an IN followed by an OUT reads the peripheral B names and writes the peripheral ADR names,
also when they differ (R190); what goes to the slot and the event is ACC (R189, the spec's decision D10); ADR is left at
the operand by the direct-address forms (at the cell's value by LD ADR), and B at the cell's value by ADDM and SUBM (R118,
R241, R242, its decision D6): log entry 8 for both. -/
def Obligations.InSelectsByBAndOutByAdr : Prop :=
  (∀ (s : State) (x y : Word),
    s.Idle → s.pc.toNat < s.memCells → (s.pc + 1).toNat < s.memCells →
    (s.pc + 2).toNat < s.memCells → (s.pc + 3).toNat < s.memCells →
    decodeCells (s.mem.read s.pc.toNat) (s.mem.read (s.pc + 1).toNat) = .ok (.inp x) →
    decodeCells (s.mem.read (s.pc + 2).toNat) (s.mem.read (s.pc + 3).toNat) = .ok (.out y) →
    s.b.toNat < s.nPorts → s.adr.toNat < s.nPorts →
    ∃ t u, step s = .next t ∧ step t = .next u ∧
      u.history = s.history ++ [.portRead s.b.toNat (s.presented s.b), .portWrite s.adr.toNat s.acc] ∧
      t.io = s.presented s.b ∧ u.ports = s.ports.set s.adr.toNat s.acc) ∧
  (∀ (i : Instr) (s t : State) (addr : Word),
    i.memoryAddress = some addr → addr.toNat < s.memCells → exec i s = .next t →
      t.adr = (if i.loadReg = some Reg.adr then s.mem.read addr.toNat else addr) ∧
      ((∃ opd, i = .addm opd ∨ i = .subm opd) → t.b = s.mem.read addr.toNat))

/-- A store is seen by the fetch of the very next instruction, and not by the storing instruction itself (R63, R247). -/
def Obligations.StoreIsSeenByTheNextFetch : Prop :=
  ∀ (s : State) (i : Instr) (r : Reg) (v : Word),
    s.Idle → s.pc.toNat < s.memCells → (s.pc + 1).toNat < s.memCells →
    decodeCells (opcodeCell s) (operandCell s) = .ok i → i.storeReg = some r → i.operand.toNat < s.memCells →
    v = (if r = .adr then i.operand else s.reg r) →
    ∃ t, step s = .next t ∧ t.Idle ∧ t.pc = s.pc + 2 ∧ t.ir = i.operand ∧
      opcodeCell t = (if i.operand = s.pc + 2 then v else s.mem.read (s.pc + 2).toNat) ∧
      operandCell t = (if i.operand = s.pc + 3 then v else s.mem.read (s.pc + 3).toNat)

/-! ## Invariants -/

/-- The machine after reset meets the invariant. The sizes are the model's choice: log entry 5. -/
def Obligations.ResetMeetsTheInvariant : Prop := State.reset.Inv

/-- Every tick keeps the invariant. -/
def Obligations.TickKeepsTheInvariant : Prop :=
  ∀ s t : State, s.Inv → tick s = .next t → t.Inv

/-- Every step keeps the invariant: canonical memory within its size, a resting Bus, FL at its reset value, a queue in
which fetch precedes execute, at most one end and exactly one disconnect per stop (R29, R31, R32, R34, R211, R219). -/
def Obligations.StepKeepsTheInvariant : Prop :=
  ∀ s t : State, s.Inv → step s = .next t → t.Inv

/-- A running machine that meets the invariant always has a next tick and a next step: it is never stuck and no word is
refused (R253). -/
def Obligations.RunningMachineAlwaysSteps : Prop :=
  ∀ s : State, s.Inv → s.Running → (∃ t, tick s = .next t) ∧ (∃ t, step s = .next t)

/-- A step ends at an instruction boundary, or stops the machine in exactly one of the two ways (R116, R211, R253). -/
def Obligations.StepEndsAtABoundaryOrAnEnd : Prop :=
  ∀ s t : State, s.Inv → step s = .next t → t.Idle ∨ t.EndedHalted ∨ t.EndedFaulted

/-- The queue is at most six words long at every tick boundary (R32). -/
def Obligations.QueueHoldsAtMostSixWords : Prop :=
  ∀ s : State, s.Inv → s.q.length ≤ 6

/-! ## Noninterference -/

/-- FL is never consulted: from an instruction boundary, a step of two machines that differ in FL alone ends alike but
for FL (R29, R182, R183). -/
def Obligations.FlagsAreNeverConsulted : Prop :=
  ∀ (s : State) (v : Word), s.q = [] →
    (∀ t, step s = .next t → step { s with fl := v } = .next { t with fl := v }) ∧
    (∀ r, step s = .fault r → step { s with fl := v } = .fault r)

/-- The ALU's result latch is dead at an instruction boundary: no stale `sum` reaches a register, memory or a peripheral
(R119, R177). -/
def Obligations.SumIsDeadAtBoundaries : Prop :=
  ∀ (s t : State) (v : Word), s.q = [] → step s = .next t →
    ∃ u, step { s with sum := v } = .next { t with sum := u }

/-- AddressBackup is dead at an instruction boundary, and so is IR when the fetch completes: neither the previous
operand nor the saved address reaches the next instruction (R26, R110, R246). -/
def Obligations.FetchForgetsIrAndAdb : Prop :=
  ∀ (s : State) (v x : Word), s.q = [] →
    step { s with adb := v } = step s ∧
    (s.pc.toNat < s.memCells → IsOpcode (opcodeCell s) →
      step { s with ir := x, adb := v } = step s)

/-! ## Reset and load -/

/-- The reset state of a machine with given sizes, memory and program counter (R41, R230; the zeros are the spec's
decision D13: log entries 6 and 7), and the sizes the model's `State.reset` takes (log entry 5). -/
def Obligations.ResetStateIsTheTable : Prop :=
  (∀ (n p : Nat) (m : Memory) (pc : Word) (s : State), s = State.start n p m pc →
    s.pc = pc ∧ (∀ r, r ≠ .pc → s.reg r = 0) ∧ s.bus = 0 ∧ s.q = [] ∧ s.sum = 0 ∧ s.mem = m ∧ s.memCells = n ∧
    s.nPorts = p ∧ (∀ v ∈ s.ports, v = 0) ∧ s.halted = false ∧ s.fault = none) ∧
  State.reset = State.start 65536 1 [] 0

/-- What a load rejects (R204, R234; what counts as malformed is the spec's decision D14, the range check of the sizes
the model's: log entry 17). -/
def Obligations.LoadRejectsMalformedImages : Prop :=
  ∀ n p : Nat, 2 ≤ n → n ≤ 65536 → p ≤ 65536 →
    load none n p = .error .missing ∧
    ∀ img : List Byte,
      (img.length < 4 → load (some img) n p = .error .tooShort) ∧
      (4 ≤ img.length → img.take 2 ≠ [0x94, 0x00] → load (some img) n p = .error .badMarker) ∧
      (4 ≤ img.length → img.take 2 = [0x94, 0x00] → img.length % 2 = 1 → load (some img) n p = .error .oddLength) ∧
      (4 ≤ img.length → img.take 2 = [0x94, 0x00] → img.length % 2 = 0 → ∃ s, load (some img) n p = .ok s)

/-- The loaded memory: cell a holds the image bytes 4 + 2a and 5 + 2a, low byte first, and 0 beyond the image; cells
beyond the memory size are dropped (R235, R236; the header is not in memory by the spec's decision D14: log entry 18). -/
def Obligations.LoadPlacesTheBodyFromCellZero : Prop :=
  ∀ (img : List Byte) (n p : Nat) (s : State), load (some img) n p = .ok s →
    s.memCells = n ∧ s.nPorts = p ∧ s.Idle ∧
    (∀ a < n, (s.mem.read a).toNat =
      if 5 + 2 * a < img.length then (img.getD (4 + 2 * a) 0).toNat + 256 * (img.getD (5 + 2 * a) 0).toNat else 0) ∧
    (∀ a, n ≤ a → s.mem.read a = 0)

/-- The initial PC is the header's entry point less one instruction word, and the first opcode cell is the image's bytes
from offset 2E on (R237, S5; the layout is the spec's decision D14: log entry 18). -/
def Obligations.FirstFetchReadsByteOffsetTwiceTheEntry : Prop :=
  ∀ (img : List Byte) (n p e : Nat) (s : State), load (some img) n p = .ok s →
    e = (img.getD 2 0).toNat + 256 * (img.getD 3 0).toNat →
    s.pc.toNat = (e + 65534) % 65536 ∧
    (2 ≤ e → e - 2 < n → 2 * e + 1 < img.length →
      (opcodeCell s).toNat = (img.getD (2 * e) 0).toNat + 256 * (img.getD (2 * e + 1) 0).toNat)

/-- A loaded program starts with the instruction its entry point names (S6; R83, R85, R235, R237). -/
def Obligations.LoadedProgramStartsAtItsEntry : Prop :=
  ∀ (body : List Instr) (k n p : Nat) (i : Instr),
    2 * body.length ≤ n → 2 ≤ n → n ≤ 65536 → p ≤ 65536 → 2 * k + 2 < 65536 → body[k]? = some i →
    ∃ s, load (some (imageOf (entryOf k) body)) n p = .ok s ∧
      step s = exec i { s with ir := i.operand, pc := s.pc + 2, q := i.microcode }

/-- Every machine the loader delivers meets the invariant. -/
def Obligations.LoadedMachineMeetsTheInvariant : Prop :=
  ∀ (img : List Byte) (n p : Nat) (s : State), load (some img) n p = .ok s → s.Inv
end

