-- ==== Sys2Proof/Laws/Decode.lean ====
section
/-! SUPPORT. What the decoder and the encoder say of each other and of the opcode map. -/

namespace Sys2Proof

theorem cellOfBytes_toNat (lo hi : Byte) : (cellOfBytes lo hi).toNat = lo.toNat + 256 * hi.toNat := by
  have hlo := lo.isLt
  have h : (cellOfBytes lo hi).toNat = hi.toNat <<< 8 ||| lo.toNat := BitVec.toNat_append hi lo
  rw [h, ← Nat.shiftLeft_add_eq_or_of_lt hlo, Nat.shiftLeft_eq]
  omega

/-- The two bytes of a cell give the cell back (R55). -/
@[simp] theorem cellOfBytes_bytes (v : Word) :
    cellOfBytes (v.extractLsb' 0 8) (v.extractLsb' 8 8) = v := by
  have hv := v.isLt
  apply BitVec.eq_of_toNat_eq
  rw [cellOfBytes_toNat, BitVec.extractLsb'_toNat, BitVec.extractLsb'_toNat, Nat.shiftRight_eq_div_pow,
    Nat.shiftRight_eq_div_pow]
  omega

/-- The cell of two bytes gives the bytes back (R55). -/
theorem bytesOfCell_cellOfBytes (lo hi : Byte) : bytesOfCell (cellOfBytes lo hi) = [lo, hi] := by
  have hlo := lo.isLt
  have hhi := hi.isLt
  have h0 : (cellOfBytes lo hi).extractLsb' 0 8 = lo := by
    apply BitVec.eq_of_toNat_eq
    rw [BitVec.extractLsb'_toNat, cellOfBytes_toNat, Nat.shiftRight_eq_div_pow]
    omega
  have h1 : (cellOfBytes lo hi).extractLsb' 8 8 = hi := by
    apply BitVec.eq_of_toNat_eq
    rw [BitVec.extractLsb'_toNat, cellOfBytes_toNat, Nat.shiftRight_eq_div_pow]
    omega
  rw [bytesOfCell, h0, h1]

theorem lookupOpcode_cons (op : Word) (row : OpcodeRow) (rest : List OpcodeRow) :
    lookupOpcode op (row :: rest) = if row.1 = op then some row.2 else lookupOpcode op rest := rfl

/-- A row found is a row of the map. -/
theorem lookupOpcode_mem {op : Word} {mk : Word → Instr} :
    ∀ {rows : List OpcodeRow}, lookupOpcode op rows = some mk → (op, mk) ∈ rows
  | [], h => by cases h
  | row :: rest, h => by
    rw [lookupOpcode_cons] at h
    split at h
    · rename_i hr
      cases h
      exact hr ▸ List.mem_cons_self
    · exact .tail _ (lookupOpcode_mem h)

/-- An instruction is what the decoder reads from its own two cells. -/
theorem decodeCells_encode (i : Instr) : decodeCells i.opcode i.operand = .ok i := by
  cases i <;> rfl

/-- Every row of the map builds instructions with its own opcode and the operand given. -/
theorem opcodeTable_sound :
    ∀ row ∈ opcodeTable, ∀ opd, (row.2 opd).opcode = row.1 ∧ (row.2 opd).operand = opd := by
  simp [opcodeTable, systemOpcodes, moveOpcodes, memoryOpcodes, otherOpcodes, Instr.opcode, Instr.operand]

/-- What the decoder answers: `i`, exactly when the cells are `i`'s opcode and operand (R70, R73, R79). -/
theorem decodeCells_ok {op opd : Word} {i : Instr} :
    decodeCells op opd = .ok i ↔ op = i.opcode ∧ opd = i.operand := by
  constructor
  · intro h
    unfold decodeCells at h
    cases hl : lookupOpcode op opcodeTable with
    | none => rw [hl] at h; cases h
    | some mk =>
      rw [hl] at h
      cases h
      obtain ⟨h1, h2⟩ := opcodeTable_sound _ (lookupOpcode_mem hl) opd
      exact ⟨h1.symm, h2.symm⟩
  · rintro ⟨rfl, rfl⟩
    exact decodeCells_encode i

end Sys2Proof
end

