-- ==== Sys2Proof/Laws/Memory.lean ====
section
/-! SUPPORT. Memory: read after write, and the canonical form every operation keeps. -/

namespace Sys2Proof.Machine

@[simp] theorem Memory.read_nil (n : Nat) : Memory.read [] n = Memory.unlisted := rfl

theorem Memory.read_cons (c : Nat × Word) (m : Memory) (n : Nat) :
    Memory.read (c :: m) n = if c.1 = n then c.2 else Memory.read m n := rfl

theorem Memory.read_erase (m : Memory) (k n : Nat) :
    (m.erase k).read n = if n = k then Memory.unlisted else m.read n := by
  induction m with
  | nil => simp [Memory.erase]
  | cons c m ih =>
    simp only [Memory.erase]
    split
    · rename_i h
      rw [ih, Memory.read_cons]
      split <;> simp_all [eq_comm]
    · rename_i h
      rw [Memory.read_cons, ih, Memory.read_cons]
      by_cases hn : n = k <;> simp_all

theorem Memory.read_insert (m : Memory) (k n : Nat) (v : Word) (h : m.read k = Memory.unlisted)
    (hm : ∀ c ∈ m, c.1 ≠ k) : (m.insert k v).read n = if n = k then v else m.read n := by
  induction m with
  | nil => simp [Memory.insert, Memory.read_cons, eq_comm]
  | cons c m ih =>
    simp only [Memory.insert]
    split
    · simp [Memory.read_cons, eq_comm]
    · have hc : c.1 ≠ k := hm c (by simp)
      rw [Memory.read_cons, Memory.read_cons, ih (by simpa [Memory.read_cons, hc] using h)
        (fun x hx => hm x (by simp [hx]))]
      by_cases hn : n = k <;> simp_all

theorem Memory.mem_erase (m : Memory) (k : Nat) (c : Nat × Word) :
    c ∈ m.erase k ↔ c ∈ m ∧ c.1 ≠ k := by
  induction m with
  | nil => simp [Memory.erase]
  | cons d m ih =>
    simp only [Memory.erase]
    split <;> simp_all <;> aesop

/-- The cell written holds the value written, every other cell what it held (R54). -/
theorem Memory.read_write (m : Memory) (k n : Nat) (v : Word) :
    (m.write k v).read n = if n = k then v else m.read n := by
  unfold Memory.write
  split
  · simp_all [Memory.read_erase]
  · rw [Memory.read_insert _ _ _ _ (by simp [Memory.read_erase]) (fun c hc => ((Memory.mem_erase m k c).1 hc).2),
      Memory.read_erase]
    split <;> simp_all

@[simp] theorem Memory.read_write_same (m : Memory) (k : Nat) (v : Word) : (m.write k v).read k = v := by
  simp [Memory.read_write]

theorem Memory.read_write_other (m : Memory) {k n : Nat} (v : Word) (h : n ≠ k) :
    (m.write k v).read n = m.read n := by
  simp [Memory.read_write, h]

theorem Memory.mem_insert (m : Memory) (k : Nat) (v : Word) (c : Nat × Word) :
    c ∈ m.insert k v ↔ c = (k, v) ∨ c ∈ m := by
  induction m with
  | nil => simp [Memory.insert]
  | cons d m ih =>
    simp only [Memory.insert]
    split
    · simp
    · simp [ih]; tauto

/-- A listed cell of a written memory is the cell written or was listed before. -/
theorem Memory.mem_write {m : Memory} {k : Nat} {v : Word} {c : Nat × Word} (h : c ∈ m.write k v) :
    c = (k, v) ∨ c ∈ m := by
  unfold Memory.write at h
  split at h
  · exact .inr ((Memory.mem_erase m k c).1 h).1
  · exact ((Memory.mem_insert _ k v c).1 h).imp_right fun h => ((Memory.mem_erase m k c).1 h).1

theorem Memory.rising_erase {m : Memory} (h : m.Pairwise (fun x y => x.1 < y.1)) (k : Nat) :
    (m.erase k).Pairwise (fun x y => x.1 < y.1) := by
  induction m with
  | nil => simp [Memory.erase]
  | cons d m ih =>
    rw [List.pairwise_cons] at h
    simp only [Memory.erase]
    split
    · exact ih h.2
    · exact List.pairwise_cons.2 ⟨fun c hc => h.1 c ((Memory.mem_erase m k c).1 hc).1, ih h.2⟩

theorem Memory.rising_insert {m : Memory} (h : m.Pairwise (fun x y => x.1 < y.1)) (k : Nat) (v : Word)
    (hk : ∀ c ∈ m, c.1 ≠ k) : (m.insert k v).Pairwise (fun x y => x.1 < y.1) := by
  induction m with
  | nil => simp [Memory.insert]
  | cons d m ih =>
    have hd := List.pairwise_cons.1 h
    have hdk : d.1 ≠ k := hk d (by simp)
    simp only [Memory.insert]
    split
    · rename_i hlt
      refine List.pairwise_cons.2 ⟨fun c hc => ?_, h⟩
      rcases List.mem_cons.1 hc with rfl | hc
      · exact hlt
      · exact lt_trans hlt (hd.1 c hc)
    · refine List.pairwise_cons.2 ⟨fun c hc => ?_, ih hd.2 fun c hc => hk c (by simp [hc])⟩
      rcases (Memory.mem_insert m k v c).1 hc with rfl | hc
      · simp only; omega
      · exact hd.1 c hc

/-- A write keeps the canonical form. -/
theorem Memory.write_wf {m : Memory} (h : m.wf) (k : Nat) (v : Word) : (m.write k v).wf := by
  unfold Memory.write
  split
  · exact ⟨Memory.rising_erase h.1 k, fun c hc => h.2 c ((Memory.mem_erase m k c).1 hc).1⟩
  · rename_i hv
    refine ⟨Memory.rising_insert (Memory.rising_erase h.1 k) k v fun c hc => ((Memory.mem_erase m k c).1 hc).2, ?_⟩
    intro c hc
    rcases (Memory.mem_insert _ k v c).1 hc with rfl | hc
    · exact hv
    · exact h.2 c ((Memory.mem_erase m k c).1 hc).1

/-- The empty memory is canonical. -/
theorem Memory.nil_wf : Memory.wf [] := by decide

/-- Two canonical memories that read alike everywhere are the same list. -/
theorem Memory.eq_of_read {m n : Memory} (hm : m.wf) (hn : n.wf) (h : ∀ k, m.read k = n.read k) : m = n := by
  have key : ∀ (m : Memory) (k : Nat), (∀ c ∈ m, k < c.1) → m.read k = Memory.unlisted := by
    intro m k
    induction m with
    | nil => simp
    | cons c m ih =>
      intro hc
      have := hc c (by simp)
      rw [Memory.read_cons, if_neg (by omega), ih fun d hd => hc d (by simp [hd])]
  induction m generalizing n with
  | nil =>
    cases n with
    | nil => rfl
    | cons d n =>
      have := h d.1
      simp [Memory.read_cons] at this
      exact absurd this.symm (hn.2 d (by simp))
  | cons c m ih =>
    have hc := List.pairwise_cons.1 hm.1
    cases n with
    | nil =>
      have := h c.1
      simp [Memory.read_cons] at this
      exact absurd this (hm.2 c (by simp))
    | cons d n =>
      have hd := List.pairwise_cons.1 hn.1
      have hcd : c.1 = d.1 := by
        rcases lt_trichotomy c.1 d.1 with hlt | heq | hgt
        · have hr := h c.1
          rw [key (d :: n) c.1 (by
            intro x hx
            rcases List.mem_cons.1 hx with rfl | hx
            · exact hlt
            · exact lt_trans hlt (hd.1 x hx))] at hr
          simp [Memory.read_cons] at hr
          exact absurd hr (hm.2 c (by simp))
        · exact heq
        · have hr := h d.1
          rw [key (c :: m) d.1 (by
            intro x hx
            rcases List.mem_cons.1 hx with rfl | hx
            · exact hgt
            · exact lt_trans hgt (hc.1 x hx))] at hr
          simp [Memory.read_cons] at hr
          exact absurd hr.symm (hn.2 d (by simp))
      have hv : c.2 = d.2 := by
        have := h c.1
        simpa [Memory.read_cons, hcd] using this
      have htail : m = n := by
        refine ih ⟨hc.2, fun x hx => hm.2 x (by simp [hx])⟩ ⟨hd.2, fun x hx => hn.2 x (by simp [hx])⟩ ?_
        intro k
        have hk := h k
        simp only [Memory.read_cons, ← hcd] at hk
        by_cases hck : c.1 = k
        · subst hck
          rw [key m c.1 hc.1, key n c.1 (by rw [hcd]; exact hd.1)]
        · simpa [hck] using hk
      rw [htail, Prod.ext hcd hv]

end Sys2Proof.Machine
end

