-- ==== Sys2Proof/Laws/State.lean ====
section
/-! SUPPORT. One lemma per field per update of State, so that no later proof unfolds a record update. -/

namespace Sys2Proof.Machine

/-! ## `State.setReg` -/

@[simp] theorem State.reg_setReg (s : State) (r r' : Reg) (v : Word) :
    (s.setReg r v).reg r' = if r' = r then v else s.reg r' := by
  cases r <;> cases r' <;> rfl

@[simp] theorem State.setReg_ir (s : State) (r : Reg) (v : Word) :
    (s.setReg r v).ir = if r = .ir then v else s.ir := by cases r <;> rfl
@[simp] theorem State.setReg_pc (s : State) (r : Reg) (v : Word) :
    (s.setReg r v).pc = if r = .pc then v else s.pc := by cases r <;> rfl
@[simp] theorem State.setReg_acc (s : State) (r : Reg) (v : Word) :
    (s.setReg r v).acc = if r = .acc then v else s.acc := by cases r <;> rfl
@[simp] theorem State.setReg_adr (s : State) (r : Reg) (v : Word) :
    (s.setReg r v).adr = if r = .adr then v else s.adr := by cases r <;> rfl
@[simp] theorem State.setReg_adb (s : State) (r : Reg) (v : Word) :
    (s.setReg r v).adb = if r = .adb then v else s.adb := by cases r <;> rfl
@[simp] theorem State.setReg_a (s : State) (r : Reg) (v : Word) :
    (s.setReg r v).a = if r = .a then v else s.a := by cases r <;> rfl
@[simp] theorem State.setReg_b (s : State) (r : Reg) (v : Word) :
    (s.setReg r v).b = if r = .b then v else s.b := by cases r <;> rfl
@[simp] theorem State.setReg_io (s : State) (r : Reg) (v : Word) :
    (s.setReg r v).io = if r = .io then v else s.io := by cases r <;> rfl
@[simp] theorem State.setReg_fl (s : State) (r : Reg) (v : Word) :
    (s.setReg r v).fl = if r = .fl then v else s.fl := by cases r <;> rfl
@[simp] theorem State.setReg_bus (s : State) (r : Reg) (v : Word) : (s.setReg r v).bus = s.bus := by cases r <;> rfl
@[simp] theorem State.setReg_q (s : State) (r : Reg) (v : Word) : (s.setReg r v).q = s.q := by cases r <;> rfl
@[simp] theorem State.setReg_sum (s : State) (r : Reg) (v : Word) : (s.setReg r v).sum = s.sum := by cases r <;> rfl
@[simp] theorem State.setReg_mem (s : State) (r : Reg) (v : Word) : (s.setReg r v).mem = s.mem := by cases r <;> rfl
@[simp] theorem State.setReg_memCells (s : State) (r : Reg) (v : Word) : (s.setReg r v).memCells = s.memCells := by cases r <;> rfl
@[simp] theorem State.setReg_ports (s : State) (r : Reg) (v : Word) : (s.setReg r v).ports = s.ports := by cases r <;> rfl
@[simp] theorem State.setReg_halted (s : State) (r : Reg) (v : Word) : (s.setReg r v).halted = s.halted := by cases r <;> rfl
@[simp] theorem State.setReg_fault (s : State) (r : Reg) (v : Word) : (s.setReg r v).fault = s.fault := by cases r <;> rfl
@[simp] theorem State.setReg_history (s : State) (r : Reg) (v : Word) : (s.setReg r v).history = s.history := by cases r <;> rfl
@[simp] theorem State.setReg_inputs (s : State) (r : Reg) (v : Word) : (s.setReg r v).inputs = s.inputs := by cases r <;> rfl
@[simp] theorem State.setReg_perReads (s : State) (r : Reg) (v : Word) : (s.setReg r v).perReads = s.perReads := by cases r <;> rfl

/-! ## `State.reg` -/

@[simp] theorem State.reg_ir (s : State) : s.reg .ir = s.ir := rfl
@[simp] theorem State.reg_pc (s : State) : s.reg .pc = s.pc := rfl
@[simp] theorem State.reg_acc (s : State) : s.reg .acc = s.acc := rfl
@[simp] theorem State.reg_adr (s : State) : s.reg .adr = s.adr := rfl
@[simp] theorem State.reg_adb (s : State) : s.reg .adb = s.adb := rfl
@[simp] theorem State.reg_a (s : State) : s.reg .a = s.a := rfl
@[simp] theorem State.reg_b (s : State) : s.reg .b = s.b := rfl
@[simp] theorem State.reg_io (s : State) : s.reg .io = s.io := rfl
@[simp] theorem State.reg_fl (s : State) : s.reg .fl = s.fl := rfl

/-! ## `State.takeFatal` -/

@[simp] theorem State.takeFatal_ir (s : State) (c : FatalCondition) (q : List ControlWord) :
    (s.takeFatal c q).ir = s.ir := rfl
@[simp] theorem State.takeFatal_pc (s : State) (c : FatalCondition) (q : List ControlWord) :
    (s.takeFatal c q).pc = s.pc := rfl
@[simp] theorem State.takeFatal_acc (s : State) (c : FatalCondition) (q : List ControlWord) :
    (s.takeFatal c q).acc = s.acc := rfl
@[simp] theorem State.takeFatal_adr (s : State) (c : FatalCondition) (q : List ControlWord) :
    (s.takeFatal c q).adr = s.adr := rfl
@[simp] theorem State.takeFatal_adb (s : State) (c : FatalCondition) (q : List ControlWord) :
    (s.takeFatal c q).adb = s.adb := rfl
@[simp] theorem State.takeFatal_a (s : State) (c : FatalCondition) (q : List ControlWord) :
    (s.takeFatal c q).a = s.a := rfl
@[simp] theorem State.takeFatal_b (s : State) (c : FatalCondition) (q : List ControlWord) :
    (s.takeFatal c q).b = s.b := rfl
@[simp] theorem State.takeFatal_io (s : State) (c : FatalCondition) (q : List ControlWord) :
    (s.takeFatal c q).io = s.io := rfl
@[simp] theorem State.takeFatal_fl (s : State) (c : FatalCondition) (q : List ControlWord) :
    (s.takeFatal c q).fl = s.fl := rfl
@[simp] theorem State.takeFatal_bus (s : State) (c : FatalCondition) (q : List ControlWord) :
    (s.takeFatal c q).bus = 0 := rfl
@[simp] theorem State.takeFatal_q (s : State) (c : FatalCondition) (q : List ControlWord) :
    (s.takeFatal c q).q = q := rfl
@[simp] theorem State.takeFatal_sum (s : State) (c : FatalCondition) (q : List ControlWord) :
    (s.takeFatal c q).sum = s.sum := rfl
@[simp] theorem State.takeFatal_mem (s : State) (c : FatalCondition) (q : List ControlWord) :
    (s.takeFatal c q).mem = s.mem := rfl
@[simp] theorem State.takeFatal_memCells (s : State) (c : FatalCondition) (q : List ControlWord) :
    (s.takeFatal c q).memCells = s.memCells := rfl
@[simp] theorem State.takeFatal_ports (s : State) (c : FatalCondition) (q : List ControlWord) :
    (s.takeFatal c q).ports = s.ports := rfl
@[simp] theorem State.takeFatal_halted (s : State) (c : FatalCondition) (q : List ControlWord) :
    (s.takeFatal c q).halted = s.halted := rfl
@[simp] theorem State.takeFatal_fault (s : State) (c : FatalCondition) (q : List ControlWord) :
    (s.takeFatal c q).fault = some c := rfl
@[simp] theorem State.takeFatal_history (s : State) (c : FatalCondition) (q : List ControlWord) :
    (s.takeFatal c q).history = s.history ++ [.disconnect] := rfl
@[simp] theorem State.takeFatal_inputs (s : State) (c : FatalCondition) (q : List ControlWord) :
    (s.takeFatal c q).inputs = s.inputs := rfl
@[simp] theorem State.takeFatal_perReads (s : State) (c : FatalCondition) (q : List ControlWord) :
    (s.takeFatal c q).perReads = s.perReads := rfl

/-! ## `committed` -/

@[simp] theorem committed_ir (w : ControlWord) (bus : Word) (mem : Memory) (ports : List Word)
    (q q' : List ControlWord) (s : State) :
    (committed w bus mem ports q q' s).ir = latched w bus s .ir := rfl
@[simp] theorem committed_pc (w : ControlWord) (bus : Word) (mem : Memory) (ports : List Word)
    (q q' : List ControlWord) (s : State) :
    (committed w bus mem ports q q' s).pc = latchedPc w bus s := rfl
@[simp] theorem committed_acc (w : ControlWord) (bus : Word) (mem : Memory) (ports : List Word)
    (q q' : List ControlWord) (s : State) :
    (committed w bus mem ports q q' s).acc = latched w bus s .acc := rfl
@[simp] theorem committed_adr (w : ControlWord) (bus : Word) (mem : Memory) (ports : List Word)
    (q q' : List ControlWord) (s : State) :
    (committed w bus mem ports q q' s).adr = latched w bus s .adr := rfl
@[simp] theorem committed_adb (w : ControlWord) (bus : Word) (mem : Memory) (ports : List Word)
    (q q' : List ControlWord) (s : State) :
    (committed w bus mem ports q q' s).adb = latched w bus s .adb := rfl
@[simp] theorem committed_a (w : ControlWord) (bus : Word) (mem : Memory) (ports : List Word)
    (q q' : List ControlWord) (s : State) :
    (committed w bus mem ports q q' s).a = latched w bus s .a := rfl
@[simp] theorem committed_b (w : ControlWord) (bus : Word) (mem : Memory) (ports : List Word)
    (q q' : List ControlWord) (s : State) :
    (committed w bus mem ports q q' s).b = latched w bus s .b := rfl
@[simp] theorem committed_io (w : ControlWord) (bus : Word) (mem : Memory) (ports : List Word)
    (q q' : List ControlWord) (s : State) :
    (committed w bus mem ports q q' s).io = latched w bus s .io := rfl
@[simp] theorem committed_fl (w : ControlWord) (bus : Word) (mem : Memory) (ports : List Word)
    (q q' : List ControlWord) (s : State) :
    (committed w bus mem ports q q' s).fl = latched w bus s .fl := rfl
@[simp] theorem committed_bus (w : ControlWord) (bus : Word) (mem : Memory) (ports : List Word)
    (q q' : List ControlWord) (s : State) :
    (committed w bus mem ports q q' s).bus = 0 := rfl
@[simp] theorem committed_q (w : ControlWord) (bus : Word) (mem : Memory) (ports : List Word)
    (q q' : List ControlWord) (s : State) :
    (committed w bus mem ports q q' s).q = q' := rfl
@[simp] theorem committed_sum (w : ControlWord) (bus : Word) (mem : Memory) (ports : List Word)
    (q q' : List ControlWord) (s : State) :
    (committed w bus mem ports q q' s).sum = recomputed w bus q s := rfl
@[simp] theorem committed_mem (w : ControlWord) (bus : Word) (mem : Memory) (ports : List Word)
    (q q' : List ControlWord) (s : State) :
    (committed w bus mem ports q q' s).mem = mem := rfl
@[simp] theorem committed_memCells (w : ControlWord) (bus : Word) (mem : Memory) (ports : List Word)
    (q q' : List ControlWord) (s : State) :
    (committed w bus mem ports q q' s).memCells = s.memCells := rfl
@[simp] theorem committed_ports (w : ControlWord) (bus : Word) (mem : Memory) (ports : List Word)
    (q q' : List ControlWord) (s : State) :
    (committed w bus mem ports q q' s).ports = ports := rfl
@[simp] theorem committed_halted (w : ControlWord) (bus : Word) (mem : Memory) (ports : List Word)
    (q q' : List ControlWord) (s : State) :
    (committed w bus mem ports q q' s).halted = (s.halted || w.has .hlt) := rfl
@[simp] theorem committed_fault (w : ControlWord) (bus : Word) (mem : Memory) (ports : List Word)
    (q q' : List ControlWord) (s : State) :
    (committed w bus mem ports q q' s).fault = s.fault := rfl
@[simp] theorem committed_history (w : ControlWord) (bus : Word) (mem : Memory) (ports : List Word)
    (q q' : List ControlWord) (s : State) :
    (committed w bus mem ports q q' s).history = s.history ++ tickEvents w bus s := rfl
@[simp] theorem committed_inputs (w : ControlWord) (bus : Word) (mem : Memory) (ports : List Word)
    (q q' : List ControlWord) (s : State) :
    (committed w bus mem ports q q' s).inputs = inputsLeft w s := rfl
@[simp] theorem committed_perReads (w : ControlWord) (bus : Word) (mem : Memory) (ports : List Word)
    (q q' : List ControlWord) (s : State) :
    (committed w bus mem ports q q' s).perReads = readsDone w s := rfl

/-! ## `afterFetch` -/

@[simp] theorem afterFetch_ir (s : State) (ws : List ControlWord) :
    (afterFetch s ws).ir = operandCell s := rfl
@[simp] theorem afterFetch_pc (s : State) (ws : List ControlWord) :
    (afterFetch s ws).pc = s.pc + 2 := rfl
@[simp] theorem afterFetch_acc (s : State) (ws : List ControlWord) :
    (afterFetch s ws).acc = s.acc := rfl
@[simp] theorem afterFetch_adr (s : State) (ws : List ControlWord) :
    (afterFetch s ws).adr = s.adr := rfl
@[simp] theorem afterFetch_adb (s : State) (ws : List ControlWord) :
    (afterFetch s ws).adb = s.adr := rfl
@[simp] theorem afterFetch_a (s : State) (ws : List ControlWord) :
    (afterFetch s ws).a = s.a := rfl
@[simp] theorem afterFetch_b (s : State) (ws : List ControlWord) :
    (afterFetch s ws).b = s.b := rfl
@[simp] theorem afterFetch_io (s : State) (ws : List ControlWord) :
    (afterFetch s ws).io = s.io := rfl
@[simp] theorem afterFetch_fl (s : State) (ws : List ControlWord) :
    (afterFetch s ws).fl = s.fl := rfl
@[simp] theorem afterFetch_bus (s : State) (ws : List ControlWord) :
    (afterFetch s ws).bus = 0 := rfl
@[simp] theorem afterFetch_q (s : State) (ws : List ControlWord) :
    (afterFetch s ws).q = ws := rfl
@[simp] theorem afterFetch_sum (s : State) (ws : List ControlWord) :
    (afterFetch s ws).sum = s.sum := rfl
@[simp] theorem afterFetch_mem (s : State) (ws : List ControlWord) :
    (afterFetch s ws).mem = s.mem := rfl
@[simp] theorem afterFetch_memCells (s : State) (ws : List ControlWord) :
    (afterFetch s ws).memCells = s.memCells := rfl
@[simp] theorem afterFetch_ports (s : State) (ws : List ControlWord) :
    (afterFetch s ws).ports = s.ports := rfl
@[simp] theorem afterFetch_halted (s : State) (ws : List ControlWord) :
    (afterFetch s ws).halted = s.halted := rfl
@[simp] theorem afterFetch_fault (s : State) (ws : List ControlWord) :
    (afterFetch s ws).fault = s.fault := rfl
@[simp] theorem afterFetch_history (s : State) (ws : List ControlWord) :
    (afterFetch s ws).history = s.history := rfl
@[simp] theorem afterFetch_inputs (s : State) (ws : List ControlWord) :
    (afterFetch s ws).inputs = s.inputs := rfl
@[simp] theorem afterFetch_perReads (s : State) (ws : List ControlWord) :
    (afterFetch s ws).perReads = s.perReads := rfl

/-! ## Stopping -/

theorem State.stopReason_eq_none {s : State} : s.stopReason = none ↔ s.Running := by
  unfold State.stopReason
  cases h : s.halted <;> cases h' : s.fault <;> simp [State.Running, h, h']

theorem State.Running.stopReason {s : State} (h : s.Running) : s.stopReason = none :=
  State.stopReason_eq_none.2 h

theorem State.stopped_eq_false {s : State} : s.stopped = false ↔ s.Running := by
  rw [← State.stopReason_eq_none, State.stopped, Option.isSome_eq_false_iff, Option.isNone_iff_eq_none]

@[simp] theorem State.takeFatal_stopped (s : State) (c : FatalCondition) (q : List ControlWord) :
    (s.takeFatal c q).stopped = true := by
  cases h : s.halted <;> simp [State.stopped, State.stopReason, h]

/-! ## The rest of the state that decides the accesses -/

@[simp] theorem State.nPorts_takeFatal (s : State) (c : FatalCondition) (q : List ControlWord) :
    (s.takeFatal c q).nPorts = s.nPorts := rfl

/-- `MemRead` (R53). -/
theorem State.memRead_ok {s : State} {addr v : Word} :
    s.memRead addr = .ok v ↔ addr.toNat < s.memCells ∧ v = s.mem.read addr.toNat := by
  unfold State.memRead State.inMemory
  split <;> simp_all [eq_comm]

/-- `MemWrite` (R54). -/
theorem State.memWrite_ok {s : State} {addr v : Word} {m : Memory} :
    s.memWrite addr v = .ok m ↔ addr.toNat < s.memCells ∧ m = s.mem.write addr.toNat v := by
  unfold State.memWrite State.inMemory
  split <;> simp_all [eq_comm]

/-- `PerRead` (R216). -/
theorem State.perRead_ok {s : State} {port v : Word} :
    s.perRead port = .ok v ↔ port.toNat < s.nPorts ∧ v = s.presented port := by
  unfold State.perRead State.isPort
  split <;> simp_all [eq_comm]

/-- `PerWrite` (R217). -/
theorem State.perWrite_ok {s : State} {port v : Word} {ps : List Word} :
    s.perWrite port v = .ok ps ↔ port.toNat < s.nPorts ∧ ps = s.ports.set port.toNat v := by
  unfold State.perWrite State.isPort
  split <;> simp_all [eq_comm]

/-- A read outside memory raises (R53). -/
theorem State.memRead_error {s : State} {addr : Word} {c : FatalCondition} :
    s.memRead addr = .error c ↔ s.memCells ≤ addr.toNat ∧ c = .addressError addr := by
  unfold State.memRead State.inMemory
  split <;> simp_all [eq_comm]

/-- A write outside memory raises (R54). -/
theorem State.memWrite_error {s : State} {addr v : Word} {c : FatalCondition} :
    s.memWrite addr v = .error c ↔ s.memCells ≤ addr.toNat ∧ c = .addressError addr := by
  unfold State.memWrite State.inMemory
  split <;> simp_all [eq_comm]

/-- A query of no peripheral raises (R216). -/
theorem State.perRead_error {s : State} {port : Word} {c : FatalCondition} :
    s.perRead port = .error c ↔ s.nPorts ≤ port.toNat ∧ c = .portError port := by
  unfold State.perRead State.isPort
  split <;> simp_all [eq_comm]

/-- A write to no peripheral raises (R217). -/
theorem State.perWrite_error {s : State} {port v : Word} {c : FatalCondition} :
    s.perWrite port v = .error c ↔ s.nPorts ≤ port.toNat ∧ c = .portError port := by
  unfold State.perWrite State.isPort
  split <;> simp_all [eq_comm]

end Sys2Proof.Machine
end

