-- ==== Sys2Proof/Laws/Tick.lean ====
section
/-! SUPPORT. What a tick, a run of ticks and the execute ticks can do, said once. -/

namespace Sys2Proof.Machine

/-- A tick of a word commits exactly when every phase answers, and then commits what the phases answered (R120). -/
theorem assertWord_ok {rom : Ucode} {w : ControlWord} {q : List ControlWord} {s s' : State} :
    assertWord rom w q s = .ok s' ↔
      ∃ bus mem ports q', driveBus w s = .ok bus ∧ writeMemory w bus s = .ok mem ∧ writePort w bus s = .ok ports ∧
        decodePoint rom w bus q s = .ok q' ∧ s' = committed w bus mem ports q q' s := by
  unfold assertWord
  cases h1 : driveBus w s with
  | error c => simp
  | ok bus =>
    cases h2 : writeMemory w bus s with
    | error c => simp [h2]
    | ok mem =>
      cases h3 : writePort w bus s with
      | error c => simp [h2, h3]
      | ok ports =>
        cases h4 : decodePoint rom w bus q s with
        | error c => simp [h2, h3, h4]
        | ok q' => simp [h2, h3, h4, eq_comm]

/-- Everything a tick of a word can do when it answers a next state. -/
theorem tickWord_next {rom : Ucode} {w : ControlWord} {q : List ControlWord} {s s' : State}
    (h : tickWord rom w q s = .next s') :
    w.wf = true ∧ ((∃ c, assertWord rom w q s = .error c ∧ s' = s.takeFatal c q) ∨ assertWord rom w q s = .ok s') := by
  unfold tickWord at h
  split at h
  · rename_i hw
    refine ⟨hw, ?_⟩
    cases ha : assertWord rom w q s with
    | error c => rw [ha] at h; exact .inl ⟨c, rfl, by simpa [eq_comm] using h⟩
    | ok t => rw [ha] at h; exact .inr (by simpa using h)
  · cases h

/-- A tick of a word never answers a machine fault: it answers a next state, or refuses an ill-formed word. -/
theorem tickWord_not_fault {rom : Ucode} {w : ControlWord} {q : List ControlWord} {s : State} {r : Fault} :
    tickWord rom w q s ≠ .fault r := by
  unfold tickWord
  split
  · split <;> simp
  · simp

/-- The word a tick asserts and the queue it leaves behind, after refill and pop (R95, R96). -/
def popped (q : List ControlWord) : ControlWord × List ControlWord :=
  match q with
  | [] => (Fetch.word1, Fetch.rest)
  | w :: q => (w, q)

@[simp] theorem popped_nil : popped [] = (Fetch.word1, Fetch.rest) := rfl
@[simp] theorem popped_cons (w : ControlWord) (q : List ControlWord) : popped (w :: q) = (w, q) := rfl

/-- A tick of a running machine asserts the popped word (R94 to R96). -/
theorem tickWith_running {rom : Ucode} {s : State} (h : s.Running) :
    tickWith rom s = tickWord rom (popped s.q).1 (popped s.q).2 s := by
  unfold tickWith
  rw [h.stopReason]
  rcases hq : s.q with _ | ⟨w, q⟩ <;> rfl

/-- A tick of a stopped machine faults (R222, U18). -/
theorem tickWith_stopped {rom : Ucode} {s : State} {r : Fault} (h : s.stopReason = some r) :
    tickWith rom s = .fault r := by
  unfold tickWith
  rw [h]

/-- Everything a tick can do when it answers a next state. -/
theorem tickWith_next {rom : Ucode} {s s' : State} (h : tickWith rom s = .next s') :
    s.Running ∧ (popped s.q).1.wf = true ∧
      ((∃ c, assertWord rom (popped s.q).1 (popped s.q).2 s = .error c ∧ s' = s.takeFatal c (popped s.q).2) ∨
        assertWord rom (popped s.q).1 (popped s.q).2 s = .ok s') := by
  cases hr : s.stopReason with
  | some r => rw [tickWith_stopped hr] at h; cases h
  | none =>
    have hrun := State.stopReason_eq_none.1 hr
    rw [tickWith_running hrun] at h
    exact ⟨hrun, tickWord_next h⟩

/-- What every tick keeps, every run of ticks keeps. -/
theorem runTicks_keeps {rom : Ucode} {P : State → Prop}
    (step : ∀ s s', P s → tickWith rom s = .next s' → P s') :
    ∀ (n : Nat) (s s' : State), P s → runTicks rom n s = .next s' → P s' := by
  intro n
  induction n with
  | zero => intro s s' hs h; simp only [runTicks] at h; cases h; exact hs
  | succ n ih =>
    intro s s' hs h
    rw [runTicks] at h
    cases ht : tickWith rom s with
    | next t =>
      rw [ht] at h
      simp only at h
      split at h
      · cases h; exact step s _ hs ht
      · exact ih t s' (step s t hs ht) h
    | fault r => rw [ht] at h; cases h
    | refused r => rw [ht] at h; cases h

/-- What every tick keeps, the ticks up to an instruction boundary keep. -/
theorem runToBoundary_keeps {rom : Ucode} {P : State → Prop}
    (step : ∀ s s', P s → tickWith rom s = .next s' → P s') :
    ∀ (n : Nat) (s s' : State), P s → runToBoundary rom n s = .next s' → P s' := by
  intro n
  induction n with
  | zero => intro s s' hs h; simp only [runToBoundary] at h; cases h; exact hs
  | succ n ih =>
    intro s s' hs h
    rw [runToBoundary] at h
    cases ht : tickWith rom s with
    | next t =>
      rw [ht] at h
      simp only at h
      split at h
      · cases h; exact step s _ hs ht
      · exact ih t s' (step s t hs ht) h
    | fault r => rw [ht] at h; cases h
    | refused r => rw [ht] at h; cases h

/-- The execute ticks of a running machine are the ticks of the entry (R116). -/
theorem execute_running {ws : List ControlWord} {opd : Word} {s : State} (h : s.Running) :
    execute ws opd s = runTicks Ucode.reference ws.length { s with ir := opd, q := ws } := by
  unfold execute
  rw [h.stopReason]

/-- A stopped machine executes nothing (R222, U18). -/
theorem execute_stopped {ws : List ControlWord} {opd : Word} {s : State} {r : Fault} (h : s.stopReason = some r) :
    execute ws opd s = .fault r := by
  unfold execute
  rw [h]

/-- What every tick keeps, and presenting an entry keeps, the execute ticks keep. -/
theorem execute_keeps {P : State → Prop} {ws : List ControlWord} {opd : Word} {s s' : State}
    (step : ∀ s s', P s → tickWith Ucode.reference s = .next s' → P s')
    (present : s.Running → P { s with ir := opd, q := ws }) (h : execute ws opd s = .next s') : P s' := by
  cases hr : s.stopReason with
  | some r => rw [execute_stopped hr] at h; cases h
  | none =>
    have hrun := State.stopReason_eq_none.1 hr
    rw [execute_running hrun] at h
    exact runTicks_keeps step _ _ _ (present hrun) h

end Sys2Proof.Machine
end

