-- ==== Sys2Proof/Laws/Words.lean ====
section
/-! SUPPORT. The drive phase of a well-formed word, the effect of the words the ROM is made of, and how a run of ticks
goes word by word. -/

namespace Sys2Proof

@[simp] theorem ControlWord.has_nil (y : Signal) : ControlWord.has [] y = false := rfl

@[simp] theorem ControlWord.has_cons (x : Signal) (w : ControlWord) (y : Signal) :
    ControlWord.has (x :: w) y = (decide (y = x) || ControlWord.has w y) := by
  by_cases h : y = x <;> simp [ControlWord.has, h]

theorem Signal.mem_drivers {x : Signal} :
    x ∈ Signal.drivers ↔ (∃ r, x = .drv r) ∨ x = .aluEn ∨ x = .memDrv ∨ x = .perDrv := by
  constructor
  · intro h
    simp only [Signal.drivers, List.mem_append, List.mem_map, List.mem_cons, List.not_mem_nil, or_false] at h
    rcases h with ⟨r, -, rfl⟩ | h
    · exact .inl ⟨r, rfl⟩
    · exact .inr h
  · rintro (⟨r, rfl⟩ | rfl | rfl | rfl)
    · cases r <;> decide
    all_goals decide

/-- A well-formed word has at most one driver (R93 a). -/
theorem ControlWord.driver_unique {w : ControlWord} (hw : w.wf = true) {x y : Signal}
    (hx : x ∈ Signal.drivers) (hy : y ∈ Signal.drivers) (hwx : w.has x = true) (hwy : w.has y = true) : x = y := by
  simp only [ControlWord.wf, Bool.and_eq_true] at hw
  have h : (Signal.drivers.filter w.has).length ≤ 1 := by simpa [ControlWord.oneDriver] using hw.1.1.1.1
  have mx : x ∈ Signal.drivers.filter w.has := List.mem_filter.2 ⟨hx, hwx⟩
  have my : y ∈ Signal.drivers.filter w.has := List.mem_filter.2 ⟨hy, hwy⟩
  match hl : Signal.drivers.filter w.has, h, mx, my with
  | [z], _, mx, my => rw [List.mem_singleton.1 mx, List.mem_singleton.1 my]

theorem ControlWord.wf_copy (r d : Reg) : ControlWord.wf [.drv r, .lat d] = true := by
  cases r <;> cases d <;> rfl

theorem ControlWord.wf_load (d : Reg) : ControlWord.wf [.memDrv, .lat d] = true := by cases d <;> rfl

theorem ControlWord.wf_store (r : Reg) : ControlWord.wf [.drv r, .memLat] = true := by cases r <;> rfl

theorem Reg.mem_all (r : Reg) : r ∈ Reg.all := by cases r <;> decide

namespace Machine

theorem driveReg_eq {w : ControlWord} {s : State} {r : Reg} (hr : w.has (.drv r) = true)
    (only : ∀ r', w.has (.drv r') = true → r' = r) (rest : Word) :
    ∀ {rs : List Reg}, r ∈ rs → driveReg w s rs rest = s.reg r
  | [], h => by cases h
  | r' :: rs, h => by
    unfold driveReg
    by_cases h' : w.has (.drv r') = true
    · rw [if_pos h', only r' h']
    · rw [if_neg h']
      refine driveReg_eq hr only rest ((List.mem_cons.1 h).resolve_left ?_)
      rintro rfl
      exact h' hr

theorem driveReg_none {w : ControlWord} {s : State} (h : ∀ r, w.has (.drv r) = false) (rest : Word) :
    ∀ rs : List Reg, driveReg w s rs rest = rest
  | [] => rfl
  | r :: rs => by
    unfold driveReg
    rw [h r]
    exact driveReg_none h rest rs

/-- DRV_r drives r's value (R97). -/
theorem driveBus_drv {w : ControlWord} {s : State} {r : Reg} (hw : w.wf = true) (h : w.has (.drv r) = true) :
    driveBus w s = .ok (s.reg r) := by
  have other : ∀ x ∈ Signal.drivers, w.has x = true → x = .drv r := fun x hx hwx =>
    ControlWord.driver_unique hw hx (Signal.mem_drivers.2 (.inl ⟨r, rfl⟩)) hwx h
  have none' : ∀ x ∈ Signal.drivers, x ≠ .drv r → w.has x = false := fun x hx hne => by
    cases hb : w.has x
    · rfl
    · exact absurd (other x hx hb) hne
  unfold driveBus
  rw [none' .memDrv (by decide) (by simp), none' .perDrv (by decide) (by simp), none' .aluEn (by decide) (by simp)]
  simp only [Bool.false_eq_true, if_false]
  rw [driveReg_eq h (fun r' hr' => by
    have := other (.drv r') (Signal.mem_drivers.2 (.inl ⟨r', rfl⟩)) hr'
    simpa using this) s.bus (Reg.mem_all r)]

/-- ALU_EN drives the stored `sum` (R103). -/
theorem driveBus_aluEn {w : ControlWord} {s : State} (hw : w.wf = true) (h : w.has .aluEn = true) :
    driveBus w s = .ok s.sum := by
  have none' : ∀ x ∈ Signal.drivers, x ≠ .aluEn → w.has x = false := fun x hx hne => by
    cases hb : w.has x
    · rfl
    · exact absurd (ControlWord.driver_unique hw hx (by decide) hb h) hne
  unfold driveBus
  rw [none' .memDrv (by decide) (by simp), none' .perDrv (by decide) (by simp), h]
  simp

/-- MEM_DRV drives the cell at ADR (R97). -/
theorem driveBus_memDrv {w : ControlWord} {s : State} (h : w.has .memDrv = true) : driveBus w s = s.memRead s.adr := by
  unfold driveBus
  rw [h]
  rfl

/-- PER_DRV drives what the peripheral B selects presents (R97). -/
theorem driveBus_perDrv {w : ControlWord} {s : State} (hw : w.wf = true) (h : w.has .perDrv = true) :
    driveBus w s = s.perRead s.b := by
  have hm : w.has .memDrv = false := by
    cases hb : w.has .memDrv
    · rfl
    · have := ControlWord.driver_unique hw (by decide) (by decide) hb h
      cases this
  unfold driveBus
  rw [hm, h]
  rfl

/-- Without a driver the Bus rests (R107). -/
theorem driveBus_none {w : ControlWord} {s : State} (h : ∀ x ∈ Signal.drivers, w.has x = false) :
    driveBus w s = .ok s.bus := by
  unfold driveBus
  rw [h .memDrv (by decide), h .perDrv (by decide), h .aluEn (by decide),
    driveReg_none fun r => h _ (Signal.mem_drivers.2 (.inl ⟨r, rfl⟩))]
  rfl

/-! ## Runs, word by word -/

/-- A tick that commits a state of a running machine is followed by the rest of the run. -/
theorem runTicks_ok {rom : Ucode} {n : Nat} {w : ControlWord} {q : List ControlWord} {s s' : State}
    (hs : s.Running) (hq : popped s.q = (w, q)) (hw : w.wf = true) (ha : assertWord rom w q s = .ok s')
    (hs' : s'.Running) : runTicks rom (n + 1) s = runTicks rom n s' := by
  rw [runTicks, tickWith_running hs, hq, tickWord, if_pos hw, ha]
  simp only [State.stopped_eq_false.2 hs']
  rfl

/-- A tick that halts ends the run. -/
theorem runTicks_halt {rom : Ucode} {n : Nat} {w : ControlWord} {q : List ControlWord} {s s' : State}
    (hs : s.Running) (hq : popped s.q = (w, q)) (hw : w.wf = true) (ha : assertWord rom w q s = .ok s')
    (hs' : s'.stopped = true) : runTicks rom (n + 1) s = .next s' := by
  rw [runTicks, tickWith_running hs, hq, tickWord, if_pos hw, ha]
  simp only [hs', if_true]

/-- A tick that raises ends the run. -/
theorem runTicks_raise {rom : Ucode} {n : Nat} {w : ControlWord} {q : List ControlWord} {s : State} {c : FatalCondition}
    (hs : s.Running) (hq : popped s.q = (w, q)) (hw : w.wf = true) (ha : assertWord rom w q s = .error c) :
    runTicks rom (n + 1) s = .next (s.takeFatal c q) := by
  rw [runTicks, tickWith_running hs, hq, tickWord, if_pos hw, ha]
  simp only [State.takeFatal_stopped, if_true]

@[simp] theorem runTicks_zero (rom : Ucode) (s : State) : runTicks rom 0 s = .next s := rfl

/-! ## The words of the ROM -/

/-- `s` with the word popped and `r` latched from `v`: `sum` follows a latch of A or B (R98, R102, R107). -/
def State.latch (s : State) (q : List ControlWord) (r : Reg) (v : Word) : State :=
  let t := { s with bus := 0, q := q }.setReg r v
  if r = .a ∨ r = .b then { t with sum := aluResult (subtractNext q) t.a t.b } else t

@[simp] theorem State.latch_mem (s : State) (q : List ControlWord) (r : Reg) (v : Word) :
    (s.latch q r v).mem = s.mem := by
  unfold State.latch; simp only; split <;> simp
@[simp] theorem State.latch_memCells (s : State) (q : List ControlWord) (r : Reg) (v : Word) :
    (s.latch q r v).memCells = s.memCells := by
  unfold State.latch; simp only; split <;> simp
@[simp] theorem State.latch_ports (s : State) (q : List ControlWord) (r : Reg) (v : Word) :
    (s.latch q r v).ports = s.ports := by
  unfold State.latch; simp only; split <;> simp
@[simp] theorem State.latch_halted (s : State) (q : List ControlWord) (r : Reg) (v : Word) :
    (s.latch q r v).halted = s.halted := by
  unfold State.latch; simp only; split <;> simp
@[simp] theorem State.latch_fault (s : State) (q : List ControlWord) (r : Reg) (v : Word) :
    (s.latch q r v).fault = s.fault := by
  unfold State.latch; simp only; split <;> simp
@[simp] theorem State.latch_history (s : State) (q : List ControlWord) (r : Reg) (v : Word) :
    (s.latch q r v).history = s.history := by
  unfold State.latch; simp only; split <;> simp
@[simp] theorem State.latch_inputs (s : State) (q : List ControlWord) (r : Reg) (v : Word) :
    (s.latch q r v).inputs = s.inputs := by
  unfold State.latch; simp only; split <;> simp
@[simp] theorem State.latch_perReads (s : State) (q : List ControlWord) (r : Reg) (v : Word) :
    (s.latch q r v).perReads = s.perReads := by
  unfold State.latch; simp only; split <;> simp
@[simp] theorem State.latch_bus (s : State) (q : List ControlWord) (r : Reg) (v : Word) :
    (s.latch q r v).bus = 0 := by
  unfold State.latch; simp only; split <;> simp
@[simp] theorem State.latch_q (s : State) (q : List ControlWord) (r : Reg) (v : Word) :
    (s.latch q r v).q = q := by
  unfold State.latch; simp only; split <;> simp
@[simp] theorem State.reg_latch (s : State) (q : List ControlWord) (r r' : Reg) (v : Word) :
    (s.latch q r v).reg r' = if r' = r then v else s.reg r' := by
  unfold State.latch; simp only; split <;> cases r <;> cases r' <;> rfl

/-- A copy from register to register, the shape of 31 of the ROM's words and of fetch words 1, 2, 4 and 6. -/
theorem assertWord_copy (rom : Ucode) (r d : Reg) (q : List ControlWord) (s : State) :
    assertWord rom [.drv r, .lat d] q s = .ok (s.latch q d (s.reg r)) := by
  rw [assertWord, driveBus_drv (ControlWord.wf_copy r d) (r := r) (by simp)]
  simp [writeMemory, writePort, decodePoint]
  cases d <;> simp [committed, latched, latchedPc, recomputed, tickEvents, inputsLeft, readsDone, State.latch,
    State.setReg, ControlWord.latchesOperand]

/-- A load of register d from the cell at ADR. -/
theorem assertWord_load (rom : Ucode) (d : Reg) (q : List ControlWord) (s : State) (h : s.adr.toNat < s.memCells) :
    assertWord rom [.memDrv, .lat d] q s = .ok (s.latch q d (s.mem.read s.adr.toNat)) := by
  rw [assertWord, driveBus_memDrv (by simp), State.memRead_ok.2 ⟨h, rfl⟩]
  simp [writeMemory, writePort, decodePoint]
  cases d <;> simp [committed, latched, latchedPc, recomputed, tickEvents, inputsLeft, readsDone, State.latch,
    State.setReg, ControlWord.latchesOperand]

/-- A store of register r to the cell at ADR. -/
theorem assertWord_store (rom : Ucode) (r : Reg) (q : List ControlWord) (s : State) (h : s.adr.toNat < s.memCells) :
    assertWord rom [.drv r, .memLat] q s =
      .ok { s with bus := 0, q := q, mem := s.mem.write s.adr.toNat (s.reg r) } := by
  rw [assertWord, driveBus_drv (ControlWord.wf_store r) (r := r) (by simp)]
  simp [writeMemory, State.memWrite, State.inMemory, h, writePort, decodePoint, committed, latched, latchedPc,
    recomputed, tickEvents, inputsLeft, readsDone, ControlWord.latchesOperand]

/-- ACC from the ALU, with or without the SUB that the tick before has already read. -/
theorem assertWord_alu (rom : Ucode) (q : List ControlWord) (s : State) :
    assertWord rom [.aluEn, .lat .acc] q s = .ok { s with bus := 0, q := q, acc := s.sum } ∧
    assertWord rom [.sub, .aluEn, .lat .acc] q s = .ok { s with bus := 0, q := q, acc := s.sum } := by
  constructor <;>
  · rw [assertWord, driveBus_aluEn (by rfl) (by simp)]
    simp [writeMemory, writePort, decodePoint, committed, latched, latchedPc, recomputed, tickEvents, inputsLeft,
      readsDone, ControlWord.latchesOperand]

/-- HLT alone. -/
theorem assertWord_hlt (rom : Ucode) (q : List ControlWord) (s : State) :
    assertWord rom [.hlt] q s =
      .ok { s with bus := 0, q := q, halted := true, history := s.history ++ [.disconnect] } := by
  rw [assertWord, driveBus_none (by decide)]
  simp [writeMemory, writePort, decodePoint, committed, latched, latchedPc, recomputed, tickEvents, inputsLeft,
    readsDone, ControlWord.latchesOperand]

/-- IO from the peripheral B selects. -/
theorem assertWord_in (rom : Ucode) (q : List ControlWord) (s : State) (h : s.b.toNat < s.nPorts) :
    assertWord rom [.perDrv, .lat .io] q s =
      .ok { s with bus := 0, q := q, io := s.presented s.b, inputs := s.inputs.tail, perReads := s.perReads + 1,
                   history := s.history ++ [.portRead s.b.toNat (s.presented s.b)] } := by
  rw [assertWord, driveBus_perDrv (by rfl) (by simp), State.perRead_ok.2 ⟨h, rfl⟩]
  simp [writeMemory, writePort, decodePoint, committed, latched, latchedPc, recomputed, tickEvents, inputsLeft,
    readsDone, ControlWord.latchesOperand]

/-- IO to the peripheral ADR selects. -/
theorem assertWord_out (rom : Ucode) (q : List ControlWord) (s : State) (h : s.adr.toNat < s.nPorts) :
    assertWord rom [.drv .io, .perLat] q s =
      .ok { s with bus := 0, q := q, ports := s.ports.set s.adr.toNat s.io,
                   history := s.history ++ [.portWrite s.adr.toNat s.io] } := by
  rw [assertWord, driveBus_drv (by rfl) (r := .io) (by simp)]
  simp [writeMemory, writePort, State.perWrite, State.isPort, h, decodePoint, committed, latched, latchedPc,
    recomputed, tickEvents, inputsLeft, readsDone, ControlWord.latchesOperand]

/-- Fetch word 3, when the cell at ADR exists and is an opcode of the ROM (R105, R109). -/
theorem assertWord_fetch3 (rom : Ucode) (q ws : List ControlWord) (s : State) (h : s.adr.toNat < s.memCells)
    (he : Ucode.entry (s.mem.read s.adr.toNat) rom = some ws) :
    assertWord rom Fetch.word3 q s =
      .ok { s with bus := 0, q := q ++ ws, ir := s.mem.read s.adr.toNat, pc := s.pc + 1 } := by
  rw [assertWord, driveBus_memDrv (by rfl), State.memRead_ok.2 ⟨h, rfl⟩]
  simp [Fetch.word3, writeMemory, writePort, decodePoint, committed, latched, latchedPc, recomputed, tickEvents,
    inputsLeft, readsDone, ControlWord.latchesOperand, he]

/-- Fetch word 5, when the cell at ADR exists (R109). -/
theorem assertWord_fetch5 (rom : Ucode) (q : List ControlWord) (s : State) (h : s.adr.toNat < s.memCells) :
    assertWord rom Fetch.word5 q s =
      .ok { s with bus := 0, q := q, ir := s.mem.read s.adr.toNat, pc := s.pc + 1 } := by
  rw [assertWord, driveBus_memDrv (by rfl), State.memRead_ok.2 ⟨h, rfl⟩]
  simp [Fetch.word5, writeMemory, writePort, decodePoint, committed, latched, latchedPc, recomputed, tickEvents,
    inputsLeft, readsDone, ControlWord.latchesOperand]

/-! ## Raises -/

/-- Fetch word 3 on a cell that is no opcode of the ROM (R201). -/
theorem assertWord_fetch3_raises (rom : Ucode) (q : List ControlWord) (s : State) (h : s.adr.toNat < s.memCells)
    (he : Ucode.entry (s.mem.read s.adr.toNat) rom = none) :
    assertWord rom Fetch.word3 q s = .error (.invalidOpcode s.adr (s.mem.read s.adr.toNat)) := by
  rw [assertWord, driveBus_memDrv (by rfl), State.memRead_ok.2 ⟨h, rfl⟩]
  simp [Fetch.word3, writeMemory, writePort, decodePoint, latched, he]

/-- A raise in the drive phase is the tick's raise (R208). -/
theorem assertWord_drive_error {rom : Ucode} {w : ControlWord} {q : List ControlWord} {s : State} {c : FatalCondition}
    (h : driveBus w s = .error c) : assertWord rom w q s = .error c := by
  rw [assertWord, h]

/-- A load outside memory raises AddressError (R202). -/
theorem assertWord_load_raises (rom : Ucode) (w : ControlWord) (q : List ControlWord) (s : State)
    (hw : w.has .memDrv = true) (h : s.memCells ≤ s.adr.toNat) :
    assertWord rom w q s = .error (.addressError s.adr) :=
  assertWord_drive_error (by rw [driveBus_memDrv hw, State.memRead_error]; exact ⟨h, rfl⟩)

/-- A store outside memory raises AddressError (R202). -/
theorem assertWord_store_raises (rom : Ucode) (r : Reg) (q : List ControlWord) (s : State)
    (h : s.memCells ≤ s.adr.toNat) : assertWord rom [.drv r, .memLat] q s = .error (.addressError s.adr) := by
  rw [assertWord, driveBus_drv (ControlWord.wf_store r) (r := r) (by simp)]
  simp only [writeMemory, ControlWord.has_cons, decide_true, Bool.true_or, Bool.or_true, if_true,
    State.memWrite_error.2 ⟨h, rfl⟩]

/-- A query of no peripheral raises PortError (R203). -/
theorem assertWord_in_raises (rom : Ucode) (q : List ControlWord) (s : State) (h : s.nPorts ≤ s.b.toNat) :
    assertWord rom [.perDrv, .lat .io] q s = .error (.portError s.b) :=
  assertWord_drive_error (by rw [driveBus_perDrv (by rfl) (by simp), State.perRead_error]; exact ⟨h, rfl⟩)

/-- A write to no peripheral raises PortError (R203). -/
theorem assertWord_out_raises (rom : Ucode) (q : List ControlWord) (s : State) (h : s.nPorts ≤ s.adr.toNat) :
    assertWord rom [.drv .io, .perLat] q s = .error (.portError s.adr) := by
  rw [assertWord, driveBus_drv (by rfl) (r := .io) (by simp)]
  simp [writeMemory, writePort, State.perWrite_error.2 ⟨h, rfl⟩]

end Machine

end Sys2Proof
end

