-- ==== Sys2Proof/Laws/Run.lean ====
section
/-! SUPPORT. Runs of ticks put together, and the ticks of a queue that no decode extends. -/

namespace Sys2Proof.Machine

/-- `m` ticks, then `n` more unless the machine stopped. -/
def thenTicks (rom : Ucode) (n : Nat) : Host.Outcome State Fault Refusal → Host.Outcome State Fault Refusal
  | .next s => if s.stopped then .next s else runTicks rom n s
  | .fault r => .fault r
  | .refused r => .refused r

/-- A run of `m + n` ticks of a running machine is one of `m` and, unless the machine stopped, one of `n`. -/
theorem runTicks_add {rom : Ucode} {m n : Nat} {s : State} (h : s.Running) :
    runTicks rom (m + n) s = thenTicks rom n (runTicks rom m s) := by
  induction m generalizing s with
  | zero => simp [thenTicks, State.stopped_eq_false.2 h]
  | succ m ih =>
    rw [Nat.succ_add, runTicks, runTicks]
    cases ht : tickWith rom s with
    | next t =>
      cases hs : t.stopped with
      | true => simp [thenTicks, hs]
      | false => simpa [hs] using ih (State.stopped_eq_false.1 hs)
    | fault r => rfl
    | refused r => rfl

/-- A tick of a running machine never answers a machine fault. -/
theorem tickWith_not_fault {rom : Ucode} {s : State} (h : s.Running) {r : Fault} : tickWith rom s ≠ .fault r := by
  rw [tickWith_running h]
  exact tickWord_not_fault

/-- A tick of a well-formed word of a running machine answers a next state. -/
theorem tickWith_exists {rom : Ucode} {s : State} (h : s.Running) (hw : (popped s.q).1.wf = true) :
    ∃ t, tickWith rom s = .next t := by
  rw [tickWith_running h, tickWord, if_pos hw]
  cases assertWord rom (popped s.q).1 (popped s.q).2 s with
  | ok t => exact ⟨t, rfl⟩
  | error c => exact ⟨_, rfl⟩

/-- Without a decode a committed tick leaves the queue behind the popped word. -/
theorem assertWord_queue {rom : Ucode} {w : ControlWord} {q : List ControlWord} {s t : State}
    (hd : w.has .dec = false) (h : assertWord rom w q s = .ok t) : t.q = q := by
  obtain ⟨bus, mem, ports, q', -, -, -, hq, rfl⟩ := assertWord_ok.1 h
  rw [decodePoint, hd] at hq
  simpa [eq_comm] using hq

/-- A tick that halts has a word with HLT (R106). -/
theorem assertWord_running {rom : Ucode} {w : ControlWord} {q : List ControlWord} {s t : State}
    (hs : s.Running) (hw : w.has .hlt = false) (h : assertWord rom w q s = .ok t) : t.Running := by
  obtain ⟨bus, mem, ports, q', -, -, -, -, rfl⟩ := assertWord_ok.1 h
  exact ⟨by simp [hs.1, hw], hs.2⟩

/-- The ticks up to the next boundary, for a queue that no decode extends, are one tick a word. -/
theorem runToBoundary_noDec {rom : Ucode} {q : List ControlWord} {n : Nat} {s : State} (hq : s.q = q) (hne : q ≠ [])
    (hd : Entry.noDec q = true) (hn : q.length ≤ n) (hs : s.Running) :
    runToBoundary rom n s = runTicks rom q.length s := by
  induction q generalizing n s with
  | nil => exact absurd rfl hne
  | cons w q ih =>
    obtain ⟨n, rfl⟩ : ∃ m, n = m + 1 := ⟨n - 1, by simp only [List.length_cons] at hn; omega⟩
    simp only [Entry.noDec, List.all_cons, Bool.and_eq_true, Bool.not_eq_true'] at hd
    rw [List.length_cons, runToBoundary, runTicks]
    cases ht : tickWith rom s with
    | fault r => rfl
    | refused r => rfl
    | next t =>
      cases hst : t.stopped with
      | true => simp [hst]
      | false =>
        have hrun := State.stopped_eq_false.1 hst
        have htq : t.q = q := by
          rcases (tickWith_next ht).2.2 with ⟨c, -, rfl⟩ | h
          · simp at hst
          · rw [hq] at h
            exact assertWord_queue hd.1 h
        cases q with
        | nil => simp [htq, hst]
        | cons w' q =>
          simp only [hst, htq, List.isEmpty_cons, Bool.or_false, Bool.false_eq_true, if_false]
          exact ih htq (by simp) hd.2 (by simpa using hn) hrun

end Sys2Proof.Machine
end

