-- ==== Sys2Proof/Laws/Exec.lean ====
section
/-! SUPPORT. Every meaning is the run of its own microcode. -/

namespace Sys2Proof.Machine

/-- A meaning runs the reference ROM's entry of its opcode (R112, R116). -/
theorem exec_eq_execute (i : Instr) (s : State) : exec i s = execute i.microcode i.operand s := by
  cases i <;> rfl

/-- The reference ROM has an entry for the opcode of every instruction (R118). -/
theorem entry_microcode (i : Instr) : Ucode.entry i.opcode Ucode.reference = some i.microcode := by
  cases i <;> rfl

/-- No execute word decodes (R113 a). -/
theorem microcode_noDec (i : Instr) : Entry.noDec i.microcode = true := by cases i <;> rfl

end Sys2Proof.Machine
end

