-- ==== Sys2Proof/Laws/PerInstr.lean ====
section
/-! SUPPORT. Statements made per instruction: one lemma per constructor. -/

namespace Sys2Proof.Laws.RoundTrip

/-- The instruction is read back from its four image bytes, whatever follows them, and the reference ROM has an
entry for its opcode (R70, R83, R118). -/
def Statement (i : Instr) : Prop :=
  (∀ rest, decodeBytes (encodeBytes i ++ rest) = .ok (i, rest)) ∧
    (Ucode.entry i.opcode Ucode.reference).isSome = true

/-- The bytes of an instruction are read back, whatever follows them. -/
theorem bytes (i : Instr) (rest : List Byte) : decodeBytes (encodeBytes i ++ rest) = .ok (i, rest) := by
  simp [encodeBytes, bytesOfCell, decodeBytes, decodeCells_encode]

theorem nop (opd : Word) : Statement (.nop opd) := ⟨bytes _, by rfl⟩
theorem hlt (opd : Word) : Statement (.hlt opd) := ⟨bytes _, by rfl⟩
theorem movAccAdr (opd : Word) : Statement (.movAccAdr opd) := ⟨bytes _, by rfl⟩
theorem movAccA (opd : Word) : Statement (.movAccA opd) := ⟨bytes _, by rfl⟩
theorem movAccB (opd : Word) : Statement (.movAccB opd) := ⟨bytes _, by rfl⟩
theorem movAccIo (opd : Word) : Statement (.movAccIo opd) := ⟨bytes _, by rfl⟩
theorem movAdrAcc (opd : Word) : Statement (.movAdrAcc opd) := ⟨bytes _, by rfl⟩
theorem movAdrA (opd : Word) : Statement (.movAdrA opd) := ⟨bytes _, by rfl⟩
theorem movAdrB (opd : Word) : Statement (.movAdrB opd) := ⟨bytes _, by rfl⟩
theorem movAdrIo (opd : Word) : Statement (.movAdrIo opd) := ⟨bytes _, by rfl⟩
theorem movAAcc (opd : Word) : Statement (.movAAcc opd) := ⟨bytes _, by rfl⟩
theorem movAAdr (opd : Word) : Statement (.movAAdr opd) := ⟨bytes _, by rfl⟩
theorem movAB (opd : Word) : Statement (.movAB opd) := ⟨bytes _, by rfl⟩
theorem movAIo (opd : Word) : Statement (.movAIo opd) := ⟨bytes _, by rfl⟩
theorem movBAcc (opd : Word) : Statement (.movBAcc opd) := ⟨bytes _, by rfl⟩
theorem movBAdr (opd : Word) : Statement (.movBAdr opd) := ⟨bytes _, by rfl⟩
theorem movBA (opd : Word) : Statement (.movBA opd) := ⟨bytes _, by rfl⟩
theorem movBIo (opd : Word) : Statement (.movBIo opd) := ⟨bytes _, by rfl⟩
theorem movIoAcc (opd : Word) : Statement (.movIoAcc opd) := ⟨bytes _, by rfl⟩
theorem movIoAdr (opd : Word) : Statement (.movIoAdr opd) := ⟨bytes _, by rfl⟩
theorem movIoA (opd : Word) : Statement (.movIoA opd) := ⟨bytes _, by rfl⟩
theorem movIoB (opd : Word) : Statement (.movIoB opd) := ⟨bytes _, by rfl⟩
theorem ldAcc (opd : Word) : Statement (.ldAcc opd) := ⟨bytes _, by rfl⟩
theorem ldAdr (opd : Word) : Statement (.ldAdr opd) := ⟨bytes _, by rfl⟩
theorem ldA (opd : Word) : Statement (.ldA opd) := ⟨bytes _, by rfl⟩
theorem ldB (opd : Word) : Statement (.ldB opd) := ⟨bytes _, by rfl⟩
theorem ldIo (opd : Word) : Statement (.ldIo opd) := ⟨bytes _, by rfl⟩
theorem ldiAcc (opd : Word) : Statement (.ldiAcc opd) := ⟨bytes _, by rfl⟩
theorem ldiAdr (opd : Word) : Statement (.ldiAdr opd) := ⟨bytes _, by rfl⟩
theorem ldiA (opd : Word) : Statement (.ldiA opd) := ⟨bytes _, by rfl⟩
theorem ldiB (opd : Word) : Statement (.ldiB opd) := ⟨bytes _, by rfl⟩
theorem ldiIo (opd : Word) : Statement (.ldiIo opd) := ⟨bytes _, by rfl⟩
theorem stAcc (opd : Word) : Statement (.stAcc opd) := ⟨bytes _, by rfl⟩
theorem stAdr (opd : Word) : Statement (.stAdr opd) := ⟨bytes _, by rfl⟩
theorem stA (opd : Word) : Statement (.stA opd) := ⟨bytes _, by rfl⟩
theorem stB (opd : Word) : Statement (.stB opd) := ⟨bytes _, by rfl⟩
theorem stIo (opd : Word) : Statement (.stIo opd) := ⟨bytes _, by rfl⟩
theorem add (opd : Word) : Statement (.add opd) := ⟨bytes _, by rfl⟩
theorem sub (opd : Word) : Statement (.sub opd) := ⟨bytes _, by rfl⟩
theorem addm (opd : Word) : Statement (.addm opd) := ⟨bytes _, by rfl⟩
theorem subm (opd : Word) : Statement (.subm opd) := ⟨bytes _, by rfl⟩
theorem jmp (opd : Word) : Statement (.jmp opd) := ⟨bytes _, by rfl⟩
theorem jz (opd : Word) : Statement (.jz opd) := ⟨bytes _, by rfl⟩
theorem jc (opd : Word) : Statement (.jc opd) := ⟨bytes _, by rfl⟩
theorem inp (opd : Word) : Statement (.inp opd) := ⟨bytes _, by rfl⟩
theorem out (opd : Word) : Statement (.out opd) := ⟨bytes _, by rfl⟩

end Sys2Proof.Laws.RoundTrip
end

