-- ==== Sys2Proof/Laws/Safety.lean ====
section
/-! SUPPORT. One lemma per field of the two updates the statements are written with. -/

namespace Sys2Proof.Machine

/-! ## `State.afterExecute` -/

@[simp] theorem State.afterExecute_ir (s : State) (opd : Word) : (s.afterExecute opd).ir = opd := rfl
@[simp] theorem State.afterExecute_pc (s : State) (opd : Word) : (s.afterExecute opd).pc = s.pc := rfl
@[simp] theorem State.afterExecute_acc (s : State) (opd : Word) : (s.afterExecute opd).acc = s.acc := rfl
@[simp] theorem State.afterExecute_adr (s : State) (opd : Word) : (s.afterExecute opd).adr = s.adr := rfl
@[simp] theorem State.afterExecute_adb (s : State) (opd : Word) : (s.afterExecute opd).adb = s.adb := rfl
@[simp] theorem State.afterExecute_a (s : State) (opd : Word) : (s.afterExecute opd).a = s.a := rfl
@[simp] theorem State.afterExecute_b (s : State) (opd : Word) : (s.afterExecute opd).b = s.b := rfl
@[simp] theorem State.afterExecute_io (s : State) (opd : Word) : (s.afterExecute opd).io = s.io := rfl
@[simp] theorem State.afterExecute_fl (s : State) (opd : Word) : (s.afterExecute opd).fl = s.fl := rfl
@[simp] theorem State.afterExecute_bus (s : State) (opd : Word) : (s.afterExecute opd).bus = 0 := rfl
@[simp] theorem State.afterExecute_q (s : State) (opd : Word) : (s.afterExecute opd).q = [] := rfl
@[simp] theorem State.afterExecute_sum (s : State) (opd : Word) : (s.afterExecute opd).sum = s.sum := rfl
@[simp] theorem State.afterExecute_mem (s : State) (opd : Word) : (s.afterExecute opd).mem = s.mem := rfl
@[simp] theorem State.afterExecute_memCells (s : State) (opd : Word) : (s.afterExecute opd).memCells = s.memCells := rfl
@[simp] theorem State.afterExecute_ports (s : State) (opd : Word) : (s.afterExecute opd).ports = s.ports := rfl
@[simp] theorem State.afterExecute_halted (s : State) (opd : Word) : (s.afterExecute opd).halted = s.halted := rfl
@[simp] theorem State.afterExecute_fault (s : State) (opd : Word) : (s.afterExecute opd).fault = s.fault := rfl
@[simp] theorem State.afterExecute_history (s : State) (opd : Word) : (s.afterExecute opd).history = s.history := rfl
@[simp] theorem State.afterExecute_inputs (s : State) (opd : Word) : (s.afterExecute opd).inputs = s.inputs := rfl
@[simp] theorem State.afterExecute_perReads (s : State) (opd : Word) : (s.afterExecute opd).perReads = s.perReads := rfl

/-! ## `State.recomputeSum` -/

@[simp] theorem State.recomputeSum_ir (s : State) (r : Reg) : (s.recomputeSum r).ir = s.ir := by
  unfold State.recomputeSum; split <;> rfl
@[simp] theorem State.recomputeSum_pc (s : State) (r : Reg) : (s.recomputeSum r).pc = s.pc := by
  unfold State.recomputeSum; split <;> rfl
@[simp] theorem State.recomputeSum_acc (s : State) (r : Reg) : (s.recomputeSum r).acc = s.acc := by
  unfold State.recomputeSum; split <;> rfl
@[simp] theorem State.recomputeSum_adr (s : State) (r : Reg) : (s.recomputeSum r).adr = s.adr := by
  unfold State.recomputeSum; split <;> rfl
@[simp] theorem State.recomputeSum_adb (s : State) (r : Reg) : (s.recomputeSum r).adb = s.adb := by
  unfold State.recomputeSum; split <;> rfl
@[simp] theorem State.recomputeSum_a (s : State) (r : Reg) : (s.recomputeSum r).a = s.a := by
  unfold State.recomputeSum; split <;> rfl
@[simp] theorem State.recomputeSum_b (s : State) (r : Reg) : (s.recomputeSum r).b = s.b := by
  unfold State.recomputeSum; split <;> rfl
@[simp] theorem State.recomputeSum_io (s : State) (r : Reg) : (s.recomputeSum r).io = s.io := by
  unfold State.recomputeSum; split <;> rfl
@[simp] theorem State.recomputeSum_fl (s : State) (r : Reg) : (s.recomputeSum r).fl = s.fl := by
  unfold State.recomputeSum; split <;> rfl
@[simp] theorem State.recomputeSum_bus (s : State) (r : Reg) : (s.recomputeSum r).bus = s.bus := by
  unfold State.recomputeSum; split <;> rfl
@[simp] theorem State.recomputeSum_q (s : State) (r : Reg) : (s.recomputeSum r).q = s.q := by
  unfold State.recomputeSum; split <;> rfl
@[simp] theorem State.recomputeSum_mem (s : State) (r : Reg) : (s.recomputeSum r).mem = s.mem := by
  unfold State.recomputeSum; split <;> rfl
@[simp] theorem State.recomputeSum_memCells (s : State) (r : Reg) : (s.recomputeSum r).memCells = s.memCells := by
  unfold State.recomputeSum; split <;> rfl
@[simp] theorem State.recomputeSum_ports (s : State) (r : Reg) : (s.recomputeSum r).ports = s.ports := by
  unfold State.recomputeSum; split <;> rfl
@[simp] theorem State.recomputeSum_halted (s : State) (r : Reg) : (s.recomputeSum r).halted = s.halted := by
  unfold State.recomputeSum; split <;> rfl
@[simp] theorem State.recomputeSum_fault (s : State) (r : Reg) : (s.recomputeSum r).fault = s.fault := by
  unfold State.recomputeSum; split <;> rfl
@[simp] theorem State.recomputeSum_history (s : State) (r : Reg) : (s.recomputeSum r).history = s.history := by
  unfold State.recomputeSum; split <;> rfl
@[simp] theorem State.recomputeSum_inputs (s : State) (r : Reg) : (s.recomputeSum r).inputs = s.inputs := by
  unfold State.recomputeSum; split <;> rfl
@[simp] theorem State.recomputeSum_perReads (s : State) (r : Reg) : (s.recomputeSum r).perReads = s.perReads := by
  unfold State.recomputeSum; split <;> rfl
@[simp] theorem State.reg_recomputeSum (s : State) (r r' : Reg) : (s.recomputeSum r).reg r' = s.reg r' := by
  unfold State.recomputeSum; split <;> cases r' <;> rfl

/-- A latch of another register than A and B leaves `sum` (R102). -/
theorem State.recomputeSum_other (s : State) {r : Reg} (ha : r ≠ .a) (hb : r ≠ .b) : s.recomputeSum r = s := by
  unfold State.recomputeSum
  rw [if_neg (by simp [ha, hb])]

end Sys2Proof.Machine
end

