-- ==== Sys2Proof/Tests/Slice0.lean ====
section
/-! SUPPORT. Tests: the encodings and the layout written out from the spec, one step per instruction from the spec's
vectors (spec/95_test_vectors.md V1 to V16, named with each test), and a witness for the hypotheses of every statement. -/

namespace Sys2Proof.Tests

open Sys2Proof Sys2Proof.Machine

/-! ## Helpers -/

/-- A machine of 64 cells and two peripherals at an instruction boundary, with the given cells. -/
def small (pc : Word) (cells : Memory) : State := State.start 64 2 cells pc

/-- `f` of the state one step answers. -/
def after {α : Type} (s : State) (f : State → α) : Option α :=
  match step s with
  | .next t => some (f t)
  | _ => none

/-- `f` of the state `n` ticks answer. -/
def afterTicks {α : Type} (rom : Ucode) (n : Nat) (s : State) (f : State → α) : Option α :=
  match runTicks rom n s with
  | .next t => some (f t)
  | _ => none

/-- Did it answer a next state? -/
def isNext (o : Host.Outcome State Fault Refusal) : Bool :=
  match o with
  | .next _ => true
  | _ => false

/-- The fault it answered, if it did. -/
def faultOf (o : Host.Outcome State Fault Refusal) : Option Fault :=
  match o with
  | .fault r => some r
  | _ => none

/-- The refusal it answered, if it did. -/
def refusalOf (o : Host.Outcome State Fault Refusal) : Option Refusal :=
  match o with
  | .refused r => some r
  | _ => none

/-- Did the phases answer? -/
def isOk {α : Type} (e : Except FatalCondition α) : Bool :=
  match e with
  | .ok _ => true
  | .error _ => false

/-- ACC, ADR, A, B, IO and `sum`, in the order of V3. -/
def working (t : State) : List Word := [t.acc, t.adr, t.a, t.b, t.io, t.sum]

/-! ## Well-formedness: a term each check refuses (R93, R112, R113) -/

theorem test_wf_two_drivers : ControlWord.oneDriver [.drv .a, .memDrv, .lat .b] = false := by decide
theorem test_wf_memory_both_ways : ControlWord.oneDirection [.memDrv, .memLat] = false := by decide
theorem test_wf_peripheral_both_ways : ControlWord.oneDirection [.perDrv, .perLat] = false := by decide
theorem test_wf_pc_twice : ControlWord.onePcWrite [.drv .ir, .lat .pc, .pci] = false := by decide
theorem test_wf_dec_without_ir : ControlWord.decWithIr [.memDrv, .lat .acc, .dec] = false := by decide
theorem test_wf_dec_with_a : ControlWord.decWithIr [.memDrv, .lat .ir, .lat .a, .dec] = false := by decide
theorem test_wf_empty_word : ControlWord.wf [] = false := by decide
theorem test_wf_no_driver_is_legal : ControlWord.wf [.lat .a, .lat .b] = true := by decide
theorem test_wf_entry_dec : Entry.wf [[.memDrv, .lat .ir, .dec]] = false := by decide
theorem test_wf_entry_hlt_first : Entry.wf [[.hlt], [.drv .a, .lat .b]] = false := by decide
theorem test_wf_entry_alu_first : Entry.wf [[.aluEn, .lat .acc]] = false := by decide
theorem test_wf_entry_sub_late : Entry.wf [[.drv .b, .lat .b], [.drv .a, .lat .io], [.sub, .aluEn, .lat .acc]] = false := by
  decide
theorem test_wf_entry_long : Entry.wf [[.pci], [.pci], [.pci], [.pci]] = false := by decide
theorem test_wf_entry_bad_word : Entry.wf [[.drv .a, .drv .b]] = false := by decide
theorem test_wf_rom_two_rows : Ucode.wf [(5, []), (5, [[.hlt]])] = false := by decide
theorem test_wf_rom_bad_entry : Ucode.wf [(5, [[.aluEn]])] = false := by decide
theorem test_ill_formed_word_refused :
    refusalOf (tickWith [] { small 0 [] with q := [[.drv .a, .drv .b]] }) = some (.illFormedWord [.drv .a, .drv .b]) := by
  decide
theorem test_ill_formed_rom_refused :
    refusalOf (configuredTick [(5, [[.aluEn]])] (small 0 [])) = some .illFormedMicrocode := by decide

/-! ## Encoding: every constructor's words, opcode cell then operand cell (R70, R71; R76, R77, R78) -/

theorem test_decode_system :
    decodeTableWord 32 0xA5C30000 = some (.nop 0xA5C3) ∧
    decodeTableWord 32 0xA5C30001 = some (.hlt 0xA5C3) := by decide
theorem test_decode_mov_acc :
    decodeTableWord 32 0xA4B20123 = some (.movAccAdr 0xA4B2) ∧
    decodeTableWord 32 0xA4B20125 = some (.movAccA 0xA4B2) ∧
    decodeTableWord 32 0xA4B20126 = some (.movAccB 0xA4B2) ∧
    decodeTableWord 32 0xA4B20127 = some (.movAccIo 0xA4B2) := by decide
theorem test_decode_mov_adr :
    decodeTableWord 32 0xA3A10132 = some (.movAdrAcc 0xA3A1) ∧
    decodeTableWord 32 0xA3A10135 = some (.movAdrA 0xA3A1) ∧
    decodeTableWord 32 0xA3A10136 = some (.movAdrB 0xA3A1) ∧
    decodeTableWord 32 0xA3A10137 = some (.movAdrIo 0xA3A1) := by decide
theorem test_decode_mov_a :
    decodeTableWord 32 0xA2900152 = some (.movAAcc 0xA290) ∧
    decodeTableWord 32 0xA2900153 = some (.movAAdr 0xA290) ∧
    decodeTableWord 32 0xA2900156 = some (.movAB 0xA290) ∧
    decodeTableWord 32 0xA2900157 = some (.movAIo 0xA290) := by decide
theorem test_decode_mov_b :
    decodeTableWord 32 0xA17F0162 = some (.movBAcc 0xA17F) ∧
    decodeTableWord 32 0xA17F0163 = some (.movBAdr 0xA17F) ∧
    decodeTableWord 32 0xA17F0165 = some (.movBA 0xA17F) ∧
    decodeTableWord 32 0xA17F0167 = some (.movBIo 0xA17F) := by decide
theorem test_decode_mov_io :
    decodeTableWord 32 0xA06E0172 = some (.movIoAcc 0xA06E) ∧
    decodeTableWord 32 0xA06E0173 = some (.movIoAdr 0xA06E) ∧
    decodeTableWord 32 0xA06E0175 = some (.movIoA 0xA06E) ∧
    decodeTableWord 32 0xA06E0176 = some (.movIoB 0xA06E) := by decide
theorem test_decode_ld :
    decodeTableWord 32 0x9F5D0202 = some (.ldAcc 0x9F5D) ∧
    decodeTableWord 32 0x9F5D0203 = some (.ldAdr 0x9F5D) ∧
    decodeTableWord 32 0x9F5D0205 = some (.ldA 0x9F5D) ∧
    decodeTableWord 32 0x9F5D0206 = some (.ldB 0x9F5D) ∧
    decodeTableWord 32 0x9F5D0207 = some (.ldIo 0x9F5D) := by decide
theorem test_decode_ldi :
    decodeTableWord 32 0x9E4C0302 = some (.ldiAcc 0x9E4C) ∧
    decodeTableWord 32 0x9E4C0303 = some (.ldiAdr 0x9E4C) ∧
    decodeTableWord 32 0x9E4C0305 = some (.ldiA 0x9E4C) ∧
    decodeTableWord 32 0x9E4C0306 = some (.ldiB 0x9E4C) ∧
    decodeTableWord 32 0x9E4C0307 = some (.ldiIo 0x9E4C) := by decide
theorem test_decode_st :
    decodeTableWord 32 0x9D3B0402 = some (.stAcc 0x9D3B) ∧
    decodeTableWord 32 0x9D3B0403 = some (.stAdr 0x9D3B) ∧
    decodeTableWord 32 0x9D3B0405 = some (.stA 0x9D3B) ∧
    decodeTableWord 32 0x9D3B0406 = some (.stB 0x9D3B) ∧
    decodeTableWord 32 0x9D3B0407 = some (.stIo 0x9D3B) := by decide
theorem test_decode_arithmetic :
    decodeTableWord 32 0x9C2A0500 = some (.add 0x9C2A) ∧
    decodeTableWord 32 0x9C2A0501 = some (.sub 0x9C2A) ∧
    decodeTableWord 32 0x9C2A0502 = some (.addm 0x9C2A) ∧
    decodeTableWord 32 0x9C2A0503 = some (.subm 0x9C2A) := by decide
theorem test_decode_jump :
    decodeTableWord 32 0x9B190600 = some (.jmp 0x9B19) ∧
    decodeTableWord 32 0x9B190601 = some (.jz 0x9B19) ∧
    decodeTableWord 32 0x9B190602 = some (.jc 0x9B19) := by decide
theorem test_decode_io :
    decodeTableWord 32 0x9A080700 = some (.inp 0x9A08) ∧
    decodeTableWord 32 0x9A080701 = some (.out 0x9A08) := by decide

/-- The operand bits above a short row are zero; one byte order for both cells (R55, R70). -/
theorem test_decode_short_and_bytes :
    decodeTableWord 16 0x0305 = some (.ldiA 0) ∧
    decodeBytes [0x06, 0x03, 0x34, 0x12, 0xFF] = .ok (.ldiB 0x1234, [0xFF]) ∧
    decodeBytes [0x06, 0x03, 0x34] = .error (.truncated 3) := by decide
/-- Opcodes outside the map: V12 and gaps next to rows (R73, R79). -/
theorem test_decode_illegal :
    [0x0800, 0x0094, 0x0122, 0x0201, 0xFFFF, 0x0002, 0x0124, 0x0208, 0x0308, 0x0401, 0x0504, 0x0603, 0x0702].map
      (decodeTableWord 32) = List.replicate 13 none := by decide
/-- The fetch words in the reference bit layout (R92, R109). -/
theorem test_fetch_bits :
    Fetch.sequence.map (fun w => (ControlWord.bits w).toNat) =
      [0x0002008, 0x0001002, 0x5080200, 0x0001002, 0x1080200, 0x0001010] := by decide

/-! ## One fetch, tick by tick (V1), and ticks per instruction (V2) -/

/-- The start of V1. -/
def v1 : State := { small 0x10 [(0x11, 0xABCD)] with adr := 0x33, adb := 0x77, ir := 0x1234 }

theorem test_fetch_tick_1 : afterTicks Ucode.reference 1 v1 (fun t => (t.adb, t.q.length, t.bus)) = some (0x0033, 5, 0) := by
  decide
theorem test_fetch_tick_2 : afterTicks Ucode.reference 2 v1 (fun t => (t.adr, t.q.length, t.bus)) = some (0x0010, 4, 0) := by
  decide
theorem test_fetch_tick_3 : afterTicks Ucode.reference 3 v1 (fun t => (t.pc, t.q.length, t.bus)) = some (0x0011, 3, 0) := by
  decide
theorem test_fetch_tick_4 : afterTicks Ucode.reference 4 v1 (fun t => (t.adr, t.q.length, t.bus)) = some (0x0011, 2, 0) := by
  decide
theorem test_fetch_tick_5 : afterTicks Ucode.reference 5 v1 (fun t => (t.ir, t.q.length, t.bus)) = some (0xABCD, 1, 0) := by
  decide
theorem test_fetch_tick_6 : afterTicks Ucode.reference 6 v1 (fun t => (t.adr, t.q.length, t.bus)) = some (0x0033, 0, 0) := by
  decide
theorem test_ticks_per_instruction :
    (Instr.nop 0).executeTicks = 0 ∧ (Instr.jz 0).executeTicks = 0 ∧ (Instr.hlt 0).executeTicks = 1 ∧
    (Instr.movIoB 0).executeTicks = 1 ∧ (Instr.ldA 0).executeTicks = 2 ∧ (Instr.out 0).executeTicks = 2 ∧
    (Instr.subm 0).executeTicks = 3 := by decide

/-! ## Moves (V3) -/

/-- The start of V3 with an opcode at cell 0. -/
def v3 (op : Word) : State :=
  { small 0 [(0, op)] with acc := 0x1111, adr := 0x33, a := 0x5555, b := 0x6666, io := 0x7777, sum := 0xDEAD }

theorem test_movAccAdr : after (v3 0x0123) working = some [0x0033, 0x0033, 0x5555, 0x6666, 0x7777, 0xDEAD] := by decide
theorem test_movAccA : after (v3 0x0125) working = some [0x5555, 0x0033, 0x5555, 0x6666, 0x7777, 0xDEAD] := by decide
theorem test_movAccB : after (v3 0x0126) working = some [0x6666, 0x0033, 0x5555, 0x6666, 0x7777, 0xDEAD] := by decide
theorem test_movAccIo : after (v3 0x0127) working = some [0x7777, 0x0033, 0x5555, 0x6666, 0x7777, 0xDEAD] := by decide
theorem test_movAdrAcc : after (v3 0x0132) working = some [0x1111, 0x1111, 0x5555, 0x6666, 0x7777, 0xDEAD] := by decide
theorem test_movAdrA : after (v3 0x0135) working = some [0x1111, 0x5555, 0x5555, 0x6666, 0x7777, 0xDEAD] := by decide
theorem test_movAdrB : after (v3 0x0136) working = some [0x1111, 0x6666, 0x5555, 0x6666, 0x7777, 0xDEAD] := by decide
theorem test_movAdrIo : after (v3 0x0137) working = some [0x1111, 0x7777, 0x5555, 0x6666, 0x7777, 0xDEAD] := by decide
theorem test_movAAcc : after (v3 0x0152) working = some [0x1111, 0x0033, 0x1111, 0x6666, 0x7777, 0x7777] := by decide
theorem test_movAAdr : after (v3 0x0153) working = some [0x1111, 0x0033, 0x0033, 0x6666, 0x7777, 0x6699] := by decide
theorem test_movAB : after (v3 0x0156) working = some [0x1111, 0x0033, 0x6666, 0x6666, 0x7777, 0xCCCC] := by decide
theorem test_movAIo : after (v3 0x0157) working = some [0x1111, 0x0033, 0x7777, 0x6666, 0x7777, 0xDDDD] := by decide
theorem test_movBAcc : after (v3 0x0162) working = some [0x1111, 0x0033, 0x5555, 0x1111, 0x7777, 0x6666] := by decide
theorem test_movBAdr : after (v3 0x0163) working = some [0x1111, 0x0033, 0x5555, 0x0033, 0x7777, 0x5588] := by decide
theorem test_movBA : after (v3 0x0165) working = some [0x1111, 0x0033, 0x5555, 0x5555, 0x7777, 0xAAAA] := by decide
theorem test_movBIo : after (v3 0x0167) working = some [0x1111, 0x0033, 0x5555, 0x7777, 0x7777, 0xCCCC] := by decide
theorem test_movIoAcc : after (v3 0x0172) working = some [0x1111, 0x0033, 0x5555, 0x6666, 0x1111, 0xDEAD] := by decide
theorem test_movIoAdr : after (v3 0x0173) working = some [0x1111, 0x0033, 0x5555, 0x6666, 0x0033, 0xDEAD] := by decide
theorem test_movIoA : after (v3 0x0175) working = some [0x1111, 0x0033, 0x5555, 0x6666, 0x5555, 0xDEAD] := by decide
theorem test_movIoB : after (v3 0x0176) working = some [0x1111, 0x0033, 0x5555, 0x6666, 0x6666, 0xDEAD] := by decide
theorem test_move_adb : after (v3 0x0132) (·.adb) = some 0x33 := by decide

/-! ## Immediate loads (V4), loads (V5), stores (V6) -/

/-- The start of V4 and V5 with an instruction at cell 0. -/
def v4 (op opd : Word) (cells : Memory) : State :=
  { small 0 ((0, op) :: (1, opd) :: cells) with
    acc := 0x1111, adr := 0x1111, a := 0x1111, b := 0x1111, io := 0x1111, sum := 0xDEAD }

theorem test_ldiAcc : after (v4 0x0302 0xFFFF []) (fun t => (working t, t.ir)) = some ([0xFFFF, 0x1111, 0x1111, 0x1111, 0x1111, 0xDEAD], 0xFFFF) := by
  decide
theorem test_ldiAdr : after (v4 0x0303 0x0020 []) (fun t => (working t, t.ir)) = some ([0x1111, 0x0020, 0x1111, 0x1111, 0x1111, 0xDEAD], 0x0020) := by
  decide
theorem test_ldiA : after (v4 0x0305 0x8000 []) (fun t => (working t, t.ir)) = some ([0x1111, 0x1111, 0x8000, 0x1111, 0x1111, 0x9111], 0x8000) := by
  decide
theorem test_ldiB : after (v4 0x0306 0xFFFF []) (fun t => (working t, t.ir)) = some ([0x1111, 0x1111, 0x1111, 0xFFFF, 0x1111, 0x1110], 0xFFFF) := by
  decide
theorem test_ldiIo : after (v4 0x0307 0x7FFF []) (fun t => (working t, t.ir)) = some ([0x1111, 0x1111, 0x1111, 0x1111, 0x7FFF, 0xDEAD], 0x7FFF) := by
  decide
theorem test_ldAcc :
    after (v4 0x0202 0x20 [(0x20, 0xBEEF)]) (fun t => (working t).take 5) = some [0xBEEF, 0x0020, 0x1111, 0x1111, 0x1111] := by decide
theorem test_ldAdr :
    after (v4 0x0203 0x20 [(0x20, 0xBEEF)]) (fun t => (working t).take 5) = some [0x1111, 0xBEEF, 0x1111, 0x1111, 0x1111] := by decide
theorem test_ldA :
    after (v4 0x0205 0x20 [(0x20, 0xBEEF)]) (fun t => (working t).take 5) = some [0x1111, 0x0020, 0xBEEF, 0x1111, 0x1111] := by decide
theorem test_ldB :
    after (v4 0x0206 0x20 [(0x20, 0xBEEF)]) (fun t => (working t).take 5) = some [0x1111, 0x0020, 0x1111, 0xBEEF, 0x1111] := by decide
theorem test_ldIo :
    after (v4 0x0207 0x20 [(0x20, 0xBEEF)]) (fun t => (working t).take 5) = some [0x1111, 0x0020, 0x1111, 0x1111, 0xBEEF] := by decide
theorem test_ld_own_opcode : after { v4 0x0206 0 [] with mem := [(0, 0x0206)] } (fun t => (t.b, t.adr)) = some (0x0206, 0) := by
  decide
theorem test_ld_out_of_range :
    after (v4 0x0202 0x40 []) (fun t => (t.acc, t.adr, t.fault)) = some (0x1111, 0x40, some (.addressError 0x40)) := by
  decide

/-- The start of V6 with a store at cell 0. -/
def v6 (op opd : Word) : State :=
  { small 0 [(0, op), (1, opd)] with acc := 0xAAAA, adr := 0x33, a := 0x5555, b := 0x6666, io := 0x7777 }

theorem test_stAcc : after (v6 0x0402 0x20) (fun t => (t.mem.read 0x20, t.adr)) = some (0xAAAA, 0x20) := by decide
theorem test_stAdr : after (v6 0x0403 0x20) (fun t => (t.mem.read 0x20, t.adr)) = some (0x0020, 0x20) := by decide
theorem test_stA : after (v6 0x0405 0x20) (fun t => (t.mem.read 0x20, t.adr)) = some (0x5555, 0x20) := by decide
theorem test_stB : after (v6 0x0406 0x20) (fun t => (t.mem.read 0x20, t.adr)) = some (0x6666, 0x20) := by decide
theorem test_stIo : after (v6 0x0407 0x20) (fun t => (t.mem.read 0x20, t.adr)) = some (0x7777, 0x20) := by decide
theorem test_st_own_operand : after (v6 0x0402 1) (fun t => (t.mem, t.ir)) = some ([(0, 0x0402), (1, 0xAAAA)], 1) := by decide
theorem test_st_out_of_range :
    after (v6 0x0406 0x40) (fun t => (t.mem, t.adr, t.fault)) =
      some ([(0, 0x0406), (1, 0x40)], 0x40, some (.addressError 0x40)) := by decide

/-! ## Arithmetic (V7, V8): a stale `sum` never shows -/

/-- The start of V7 and V8. -/
def v7 (op opd a b : Word) (cells : Memory) : State :=
  { small 0 ((0, op) :: cells) with a := a, b := b, acc := 0x1111, adr := 0x33, sum := 0xDEAD, ir := opd }

theorem test_add : after (v7 0x0500 0 0xFFFF 1 []) working = some [0, 0x33, 0xFFFF, 1, 0, 0] := by decide
theorem test_add_no_flag : after (v7 0x0500 0 0x7FFF 1 []) (fun t => (t.acc, t.fl)) = some (0x8000, 0) := by decide
theorem test_sub : after (v7 0x0501 0 3 5 []) working = some [0xFFFE, 0x33, 3, 5, 0, 0xFFFE] := by decide
theorem test_sub_borrow : after (v7 0x0501 0 0 0x8000 []) (·.acc) = some 0x8000 := by decide
theorem test_addm :
    after (v7 0x0502 0 0x8000 0x6666 [(1, 0x20), (0x20, 0x8000)]) working = some [0, 0x20, 0x8000, 0x8000, 0, 0] := by decide
theorem test_subm :
    after (v7 0x0503 0 1 0x6666 [(1, 0x20), (0x20, 0xFFFF)]) working = some [2, 0x20, 1, 0xFFFF, 0, 2] := by decide
theorem test_addm_out_of_range :
    after (v7 0x0502 0 5 2 [(1, 0x40)]) (fun t => (t.adr, t.b, t.acc, t.fault)) =
      some (0x40, 2, 0x1111, some (.addressError 0x40)) := by decide

/-! ## Jumps (V9), input and output (V10), NOP and HLT (V11) -/

theorem test_jmp : after (small 0x10 [(0x10, 0x0600), (0x11, 0x11)]) (fun t => (t.pc, t.ir, t.fault)) = some (0x11, 0x11, none) := by
  decide
theorem test_jmp_out_of_range :
    after (small 0 [(0, 0x0600), (1, 0xFFFE)]) (fun t => (t.pc, t.fault)) = some (0xFFFE, none) := by decide
theorem test_jz_acc_zero : after (small 0 [(0, 0x0601), (1, 0x20)]) (fun t => (t.pc, t.ir)) = some (2, 0x20) := by decide
theorem test_jz_flags_set :
    after { small 0 [(0, 0x0601), (1, 0x20)] with fl := 0xFFFF } (fun t => (t.pc, t.fl)) = some (2, 0xFFFF) := by decide
theorem test_jc_flags_set :
    after { small 0 [(0, 0x0602), (1, 0x20)] with fl := 0xFFFF } (fun t => (t.pc, t.fl)) = some (2, 0xFFFF) := by decide
theorem test_jc : after (small 4 [(4, 0x0602), (5, 0x20)]) (fun t => (t.pc, t.ir)) = some (6, 0x20) := by decide
theorem test_inp :
    after { small 0 [(0, 0x0700)] with b := 1, io := 0x7777, inputs := [0xAB, 9] }
      (fun t => (t.io, t.b, t.adr, t.ports, t.inputs)) = some (0xAB, 1, 0, [0, 0], [9]) := by decide
theorem test_inp_no_port :
    after { small 0 [(0, 0x0700)] with b := 2, io := 0x7777, inputs := [9] } (fun t => (t.io, t.fault, t.inputs)) =
      some (0x7777, some (.portError 2), [9]) := by decide
theorem test_out :
    after { small 0 [(0, 0x0701)] with acc := 0x1234, adr := 1, io := 0x7777 }
      (fun t => (t.io, t.ports, t.history)) = some (0x1234, [0, 0x1234], [.portWrite 1 0x1234]) := by decide
theorem test_out_no_port :
    after { small 0 [(0, 0x0701)] with acc := 0x1234, adr := 0xFFFF } (fun t => (t.io, t.ports, t.fault)) =
      some (0x1234, [0, 0], some (.portError 0xFFFF)) := by decide
theorem test_nop :
    after { small 2 [(3, 0x5A5A)] with acc := 0x1111, adr := 0x33 }
      (fun t => (working t, t.ir, t.pc, t.adb, t.stopped)) = some ([0x1111, 0x33, 0, 0, 0, 0], 0x5A5A, 4, 0x33, false) := by
  decide
theorem test_hlt :
    after { small 8 [(8, 1)] with acc := 8 } (fun t => ([t.acc, t.ir, t.pc], t.halted, t.q.length, t.fault)) =
      some ([8, 0, 0xA], true, 0, none) := by decide
theorem test_hlt_disconnects : after (small 8 [(8, 1)]) (·.history) = some [.disconnect] := by decide

/-! ## Faults (V12) -/

theorem test_invalid_opcode :
    after { small 0 [(0, 0x0800)] with ir := 0x1234 } (fun t => ([t.ir, t.pc, t.adr], t.q, t.fault)) =
      some ([0x1234, 0, 0], [Fetch.word2, Fetch.word5, Fetch.word6], some (.invalidOpcode 0 0x0800)) := by decide
theorem test_fetch_past_memory :
    after (small 0x40 []) (fun t => (t.pc, t.adr, t.fault, t.history)) =
      some (0x40, 0x40, some (.addressError 0x40), [.disconnect]) := by decide
theorem test_operand_past_memory :
    after (small 0x3F [(0x3F, 0x0305)]) (fun t => ([t.ir, t.pc, t.a], t.q, t.fault)) =
      some ([0x0305, 0x40, 0], [Fetch.word6, [.drv .ir, .lat .a]], some (.addressError 0x40)) := by decide
theorem test_faulted_machine_is_stuck :
    faultOf (step { small 0 [] with fault := some (.portError 0) }) = some (.faulted (.portError 0)) := by decide
theorem test_halted_machine_is_stuck : faultOf (step { small 0 [] with halted := true }) = some .halted := by decide
theorem test_cause_codes :
    (FatalCondition.invalidOpcode 0 0).code = 1 ∧ (FatalCondition.addressError 0).code = 2 ∧
    (FatalCondition.portError 0).code = 3 := by decide
theorem test_middle_of_an_instruction :
    after { small 0 [] with q := [[.drv .ir, .lat .adr], [.memDrv, .lat .a]], ir := 5, mem := [(5, 7)] }
      (fun t => (t.a, t.adr, t.q)) = some (7, 5, []) := by decide

/-! ## Loader (V14, V15) -/

/-- The image of V14 with the given entry point. -/
def v14 (e : Byte) : List Byte :=
  [0x94, 0, e, 0, 5, 3, 5, 0, 6, 3, 3, 0, 0, 5, 0, 0, 1, 7, 0, 0, 1, 0, 0, 0]

/-- `f` of the loaded state. -/
def loaded {α : Type} (img : List Byte) (n p : Nat) (f : State → α) : Except LoadError α :=
  match load (some img) n p with
  | .ok s => .ok (f s)
  | .error e => .error e

theorem test_load :
    loaded (v14 2) 16 1 (fun s => (s.pc, s.mem)) =
      .ok (0, [(0, 0x0305), (1, 5), (2, 0x0306), (3, 3), (4, 0x0500), (6, 0x0701), (8, 1)]) := by decide
theorem test_load_truncates :
    loaded (v14 2) 6 1 (·.mem) = .ok [(0, 0x0305), (1, 5), (2, 0x0306), (3, 3), (4, 0x0500)] := by decide
theorem test_load_entry : loaded (v14 6) 16 1 (·.pc) = .ok 4 ∧ loaded (v14 0) 16 1 (·.pc) = .ok 0xFFFE := by decide
theorem test_load_header_only : load (some [0x94, 0, 2, 0]) 65536 1 = .ok State.reset := by decide
theorem test_load_errors :
    loaded [0x94, 0, 2] 8 1 (·.pc) = .error .tooShort ∧
    loaded [0x95, 0, 2, 0, 1, 0, 0, 0] 8 1 (·.pc) = .error .badMarker ∧
    loaded [0, 0x94, 2, 0, 1, 0, 0, 0] 8 1 (·.pc) = .error .badMarker ∧
    loaded [0x94, 0, 2, 0, 1, 0, 0] 8 1 (·.pc) = .error .oddLength ∧
    load none 8 1 = .error .missing ∧ loaded [0x94, 0, 2, 0] 1 1 (·.pc) = .error .badParameters := by decide
theorem test_load_half_word : loaded [0x94, 0, 2, 0, 1, 0] 8 1 (fun s => (s.mem, isNext (step s))) = .ok ([(0, 1)], true) := by
  decide
theorem test_reset :
    (Reg.all.map State.reset.reg, State.reset.sum, State.reset.ports, State.reset.q, State.reset.stopped) =
      ([0, 0, 0, 0, 0, 0, 0, 0, 0], 0, [0], [], false) := by decide
theorem test_pc_wraps :
    after (State.start 65536 1 [] 0xFFFE) (fun t => (t.pc, t.fault)) = some (0, none) := by decide
theorem test_withFetchWord :
    after (State.reset.withFetchWord 32 0x00050305) (fun t => (t.a, t.pc)) = some (5, 2) ∧
    after (({ small 0x10 [(0x10, 1)] with q := [Fetch.word6] } : State).withFetchWord 16 0x0302) (fun t => (t.acc, t.pc)) =
      some (0, 0x12) := by decide

/-! ## Another ROM (V16) -/

/-- The four extra entries of V16. -/
def extraRom : Ucode :=
  [(0x0900, [[.drv .ir, .lat .b], [.sub, .aluEn, .lat .acc]]), (0x0903, [[.drv .ir, .lat .b], [.aluEn, .lat .acc]]),
   (0x0901, [[.drv .ir, .lat .a], [.sub, .aluEn, .lat .acc]]), (0x0902, [[.lat .a, .lat .b], [.aluEn, .lat .acc, .lat .io]])]

theorem test_extra_rom_wf : extraRom.wf = true := by decide
theorem test_extra_sub :
    afterTicks extraRom 8 { small 0 [(0, 0x0900), (1, 3)] with a := 5, b := 0x6666 } (fun t => (t.b, t.acc, t.q)) =
      some (3, 2, []) := by decide
theorem test_extra_add :
    afterTicks extraRom 8 { small 0 [(0, 0x0903), (1, 3)] with a := 5, b := 0x6666 } (fun t => (t.b, t.acc, t.q)) =
      some (3, 8, []) := by decide
theorem test_extra_latch_a :
    afterTicks extraRom 8 { small 0 [(0, 0x0901), (1, 3)] with a := 0x5555, b := 5 } (fun t => (t.a, t.acc)) =
      some (3, 0xFFFE) := by decide
theorem test_extra_no_driver :
    afterTicks extraRom 8 { small 0 [(0, 0x0902)] with a := 0x5555, b := 5, acc := 0x1111, io := 0x2222 }
      (fun t => (t.a, t.b, t.acc, t.io, t.sum)) = some (0, 0, 0, 0, 0) := by decide


/-! ## Witnesses: concrete states and operands that meet the hypotheses of each statement -/

theorem witness_OpcodesOutsideTheMapAreIllegal : IsOpcode 0x0123 ∧ ¬ IsOpcode 0x0122 ∧ ¬ IsOpcode 0x0124 := by
  refine ⟨.inr (.inl ⟨2, by decide, 3, by decide, by decide, by decide⟩), ?_, ?_⟩ <;> simp [IsOpcode, registerCodes]
theorem witness_EveryTickLeavesTheBusAtZero : isNext (tickWith [] (small 0 [])) = true := by decide
theorem witness_LatchesTakeTheDriversStartValue_drv :
    ControlWord.wf [.drv .b, .lat .b] = true ∧ isOk (assertWord [] [.drv .b, .lat .b] [] (small 0 [])) = true := by decide
theorem witness_LatchesTakeTheDriversStartValue_aluEn :
    ControlWord.wf [.aluEn, .lat .acc] = true ∧ isOk (assertWord [] [.aluEn, .lat .acc] [] (small 0 [])) = true := by decide
theorem witness_LatchesTakeTheDriversStartValue_memDrv :
    ControlWord.wf [.memDrv, .lat .a] = true ∧
    isOk (assertWord [] [.memDrv, .lat .a] [] { small 0 [] with adr := 63 }) = true := by decide
theorem witness_LatchesTakeTheDriversStartValue_perDrv :
    ControlWord.wf [.perDrv, .lat .io] = true ∧
    isOk (assertWord [] [.perDrv, .lat .io] [] { small 0 [] with b := 1 }) = true := by decide
theorem witness_LatchesTakeTheDriversStartValue_none :
    ControlWord.wf [.lat .a] = true ∧ (∀ x ∈ Signal.drivers, ControlWord.has [.lat .a] x = false) ∧
    (small 0 []).bus = 0 ∧ isOk (assertWord [] [.lat .a] [] (small 0 [])) = true := by decide
theorem witness_LatchesTakeTheDriversStartValue_pci :
    ControlWord.wf [.pci] = true ∧ ControlWord.has [.pci] (.lat .pc) = false ∧
    isOk (assertWord [] [.pci] [] (small 0xFFFF [])) = true := by decide
theorem witness_AluLooksAheadForSubtract :
    ∀ w' ∈ [[.sub, .aluEn, .lat .acc], [.aluEn, .lat .acc]],
      (small 0 []).Running ∧ ControlWord.wf w' = true ∧
      (afterTicks [] 1 { small 0 [] with q := [[.drv .b, .lat .b], w'] } fun t =>
        (t.stopped, afterTicks [] 1 t (·.fault))) = some (false, some none) := by decide
theorem witness_MemorySignalsAccessTheCellAtAdr_read :
    ({ small 0 [] with adr := 63 } : State).adr.toNat < (small 0 []).memCells ∧
    (small 0 []).memCells ≤ ({ small 0 [] with adr := 64 } : State).adr.toNat ∧
    isOk (assertWord [] [.memDrv, .lat .a] [] { small 0 [] with adr := 63 }) = true ∧
    isOk (assertWord [] [.memDrv, .lat .a] [] { small 0 [] with adr := 64 }) = false := by decide
theorem witness_MemorySignalsAccessTheCellAtAdr_write :
    ControlWord.wf [.drv .a, .memLat] = true ∧
    driveBus [.drv .a, .memLat] { small 0 [] with adr := 63, a := 7 } = .ok 7 ∧
    isOk (assertWord [] [.drv .a, .memLat] [] { small 0 [] with adr := 63, a := 7 }) = true ∧
    isOk (assertWord [] [.drv .a, .memLat] [] { small 0 [] with adr := 64, a := 7 }) = false := by decide
theorem witness_PortWriteIsOneOutputEvent :
    ControlWord.wf [.drv .io, .perLat] = true ∧
    driveBus [.drv .io, .perLat] { small 0 [] with adr := 1, io := 7 } = .ok 7 ∧
    ({ small 0 [] with adr := 1 } : State).adr.toNat < (small 0 []).nPorts ∧
    (small 0 []).nPorts ≤ ({ small 0 [] with adr := 2 } : State).adr.toNat ∧
    isOk (assertWord [] [.drv .io, .perLat] [] { small 0 [] with adr := 1, io := 7 }) = true := by decide
theorem witness_DecodeAppendsTheEntryAtTheTail :
    Fetch.word3.wf = true ∧ Fetch.word3.has .dec = true ∧ Fetch.word3.has .memLat = false ∧
    Fetch.word3.has .perLat = false ∧ driveBus Fetch.word3 { small 0 [(0, 5)] with adr := 0 } = .ok 5 ∧
    Ucode.entry 5 [(5, [[.hlt]])] = some [[.hlt]] ∧ Ucode.entry 5 [(6, [[.hlt]])] = none ∧
    Ucode.wf [(5, [[.hlt]])] = true := by decide
theorem witness_HltSignalIsTerminal :
    isNext (tickWith [] { small 0 [] with q := [[.hlt, .drv .a, .lat .b]] }) = true ∧
    isNext (tickWith [] { small 0 [] with q := [[.drv .a, .lat .b]] }) = true ∧
    isOk (assertWord [] [.drv .a, .lat .b] [] (small 0 [])) = true ∧
    ({ small 0 [] with halted := true } : State).halted = true := by decide
theorem witness_FatalConditionsFollowThePhases :
    ∀ w ∈ [[.memDrv, .lat .a], [.perDrv, .lat .a], [.drv .a, .memLat], [.drv .a, .perLat], [.drv .a, .lat .ir, .dec],
        [.drv .a, .lat .b]],
      ControlWord.wf w = true ∧
      isNext (tickWith [] { small 0 [] with q := [w], adr := 64, b := 2 }) = true ∧
      isNext (tickWith [(0, [])] { small 0 [] with q := [w], adr := 1, b := 1, inputs := [0] }) = true := by decide
theorem witness_RaisingTickCommitsNothing :
    afterTicks [] 1 { small 0 [] with q := [[.memDrv, .lat .a]], adr := 64 } (·.fault) = some (some (.addressError 64)) := by
  decide
theorem witness_StoppedMachineNeverSteps :
    ¬ ({ small 0 [] with halted := true } : State).Running ∧
    ¬ ({ small 0 [] with fault := some (.portError 0) } : State).Running := by decide
theorem witness_TeardownIsTheHaltPath : (small 0 []).Running := by decide
theorem witness_FetchSequenceNetEffect :
    (small 0x3E [(0x3E, 5)]).Idle ∧ (small 0x3E []).pc.toNat < 64 ∧ ((small 0x3E []).pc + 1).toNat < 64 ∧
    Ucode.entry (opcodeCell (small 0x3E [(0x3E, 5)])) [(5, [[.hlt]])] = some [[.hlt]] := by decide
theorem witness_InvalidOpcodeIsRaisedAtTheDecodePoint :
    (small 0x3F [(0x3F, 5)]).Idle ∧ (small 0x3F []).pc.toNat < 64 ∧
    Ucode.entry (opcodeCell (small 0x3F [(0x3F, 5)])) Ucode.reference = none ∧
    isNext (exec (.ldA 0x40) (small 0 [])) = true := by decide
theorem witness_AddressErrorIsRaisedByEveryAccess :
    (small 0x40 []).memCells ≤ (small 0x40 []).pc.toNat ∧ (small 0x3F [(0x3F, 1)]).pc.toNat < 64 ∧
    64 ≤ ((small 0x3F [(0x3F, 1)]).pc + 1).toNat ∧
    Ucode.entry (opcodeCell (small 0x3F [(0x3F, 1)])) Ucode.reference = some [[.hlt]] ∧
    (Instr.subm 0x40).memoryAddress = some 0x40 ∧ (Instr.stAdr 0xFFFF).memoryAddress = some 0xFFFF ∧
    driveBus [.drv .a, .memLat] { small 0 [] with adr := 64 } = .ok 0 := by decide
theorem witness_PortErrorIsRaisedByInAndOut :
    ({ small 0 [] with b := 2 } : State).Running ∧ (small 0 []).nPorts ≤ ({ small 0 [] with b := 2 } : State).b.toNat ∧
    (small 0 []).nPorts ≤ ({ small 0 [] with adr := 2 } : State).adr.toNat ∧
    ControlWord.wf [.perDrv, .lat .io] = true ∧ ControlWord.wf [.drv .io, .perLat] = true ∧
    driveBus [.drv .io, .perLat] { small 0 [] with adr := 2 } = .ok 0 := by decide
theorem witness_StepRunsTheDecodedInstruction :
    (small 0x3E [(0x3E, 0x0305), (0x3F, 9)]).Idle ∧ ((small 0x3E []).pc + 1).toNat < 64 ∧
    decodeCells (opcodeCell (small 0x3E [(0x3E, 0x0305), (0x3F, 9)]))
      (operandCell (small 0x3E [(0x3E, 0x0305), (0x3F, 9)])) = .ok (.ldiA 9) := by decide
theorem witness_StepIsTheTicksOfOneInstruction : (small 0 [(0, 0x0503)]).Idle := by decide
theorem witness_InstructionTakesSixPlusKTicks :
    extraRom.wf = true ∧ (small 0 [(0, 0x0900)]).Idle ∧
    (Ucode.entry (opcodeCell (small 0 [(0, 0x0900)])) extraRom).isSome = true ∧
    afterTicks extraRom (Config.fetchLen + 2) (small 0 [(0, 0x0900)]) (·.fault) = some none := by decide
theorem witness_MovesCopyTheSource : (small 0 []).Running ∧ (Instr.movIoB 0).moveRegs = some (.io, .b) := by decide
theorem witness_ImmediateLoadsTakeTheOperand : (small 0 []).Running ∧ (Instr.ldiIo 7).immediateReg = some .io := by decide
theorem witness_LoadsTakeTheAddressedCell :
    (small 0 []).Running ∧ (Instr.ldAdr 63).loadReg = some .adr ∧ (Instr.ldAdr 63).operand.toNat < (small 0 []).memCells := by
  decide
theorem witness_StoresWriteTheAddressedCell :
    (small 0 []).Running ∧ (Instr.stAdr 63).storeReg = some .adr ∧ (Instr.stAdr 63).operand.toNat < (small 0 []).memCells ∧
    (Instr.stAdr 63).memoryAddress = some 63 := by decide
theorem witness_AddAndSubCombineAAndB : (small 0 []).Running := by decide
theorem witness_AddmAndSubmCombineAAndTheCell :
    (small 0 [(63, 7)]).Running ∧ (63 : Word).toNat < (small 0 []).memCells ∧ (7 : Word) = (small 0 [(63, 7)]).mem.read 63 := by
  decide
theorem witness_JmpLoadsPc : (small 0 []).Running := by decide
theorem witness_ConditionalJumpsAreGatedOnConditionsNeverSet : ({ small 0 [] with fl := 0xFFFF } : State).Running := by
  decide
theorem witness_InLatchesThePresentedValue :
    ({ small 0 [] with b := 1, inputs := [5] } : State).Running ∧ (1 : Word).toNat < (small 0 []).nPorts ∧
    ({ small 0 [] with inputs := [5] } : State).inputs = 5 :: [] ∧ (small 0 []).inputs = [] := by decide
theorem witness_OutSendsAccThroughIo :
    ({ small 0 [] with adr := 1 } : State).Running ∧ (1 : Word).toNat < (small 0 []).nPorts := by decide
theorem witness_NopDoesNothingAndHltHalts : (small 0 []).Running := by decide
theorem witness_RegistersOutsideTheWrittenOnesAreKept :
    isNext (exec (.addm 64) (small 0 [])) = true ∧ isNext (exec (.addm 63) (small 0 [])) = true ∧
    Reg.io ∉ (Instr.addm 63).writtenRegs := by decide
theorem witness_OnlyStoresChangeMemory :
    isNext (exec (.stA 63) (small 0 [])) = true ∧ (Instr.stA 63).storeReg = some .a ∧
    (Instr.stA 63).memoryAddress = some 63 ∧ isNext (exec (.ldA 63) (small 0 [])) = true ∧
    (Instr.ldA 63).storeReg = none := by decide
theorem witness_EverythingElseIsKept :
    isNext (exec (.jmp 63) (small 0 [])) = true ∧ Reg.a ∉ (Instr.jmp 63).writtenRegs ∧ Reg.b ∉ (Instr.jmp 63).writtenRegs ∧
    isNext (exec (.hlt 63) (small 0 [])) = true := by decide
theorem witness_ControlMovesOnUnlessJmp :
    (small 0x3E [(0x3E, 0x0600)]).Idle ∧ after (small 0x3E [(0x3E, 0x0600)]) (·.fault) = some none ∧
    decodeCells (opcodeCell (small 0x3E [(0x3E, 0x0600)])) (operandCell (small 0x3E [(0x3E, 0x0600)])) = .ok (.jmp 0) := by
  decide
/-- S4: an IN from port 1 followed by an OUT to port 0. -/
theorem witness_InSelectsByBAndOutByAdr_sequence :
    (small 0x3C [(0x3C, 0x0700), (0x3E, 0x0701)]).Idle ∧
    decodeCells ((small 0x3C [(0x3C, 0x0700), (0x3E, 0x0701)]).mem.read 0x3C) 0 = .ok (.inp 0) ∧
    decodeCells ((small 0x3C [(0x3C, 0x0700), (0x3E, 0x0701)]).mem.read 0x3E) 0 = .ok (.out 0) ∧
    ((small 0x3C []).pc + 3).toNat < 64 ∧ (1 : Word).toNat < (small 0 []).nPorts := by decide
theorem witness_InSelectsByBAndOutByAdr_clobbers :
    (Instr.ldAdr 63).memoryAddress = some 63 ∧ isNext (exec (.ldAdr 63) (small 0 [])) = true ∧
    (Instr.addm 63).memoryAddress = some 63 ∧ isNext (exec (.addm 63) (small 0 [])) = true := by decide
theorem witness_StoreIsSeenByTheNextFetch :
    (small 0 [(0, 0x0402), (1, 2)]).Idle ∧
    decodeCells (opcodeCell (small 0 [(0, 0x0402), (1, 2)])) (operandCell (small 0 [(0, 0x0402), (1, 2)])) = .ok (.stAcc 2) ∧
    (Instr.stAcc 2).storeReg = some .acc ∧ (Instr.stAcc 2).operand = (small 0 []).pc + 2 := by decide

/-- A machine at a boundary and one in the middle of a fetch meet the invariant. -/
theorem witness_Inv :
    (small 2 [(2, 0x0305), (63, 1)]).Inv ∧ ({ small 3 [(2, 0x0305)] with q := Fetch.sequence.drop 3 ++ Entry.ldi .a } : State).Inv := by
  constructor
  · exact ⟨by decide, by decide, by decide, by decide, rfl, rfl,
      .inr ⟨6, 0, [], 0, by decide, by decide, rfl, by decide, rfl⟩, by decide, by decide⟩
  · exact ⟨by decide, by decide, by decide, by decide, rfl, rfl,
      .inr ⟨3, 0x0305, Entry.ldi .a, 0, by decide, by decide, rfl, by decide, rfl⟩, by decide, by decide⟩
theorem witness_TickKeepsTheInvariant : isNext (tick (small 2 [(2, 0x0305), (63, 1)])) = true := by decide
theorem witness_StepKeepsTheInvariant :
    isNext (step (small 2 [(2, 0x0305), (63, 1)])) = true ∧
    isNext (step { small 3 [(2, 0x0305)] with q := Fetch.sequence.drop 3 ++ Entry.ldi .a }) = true := by decide
theorem witness_RunningMachineAlwaysSteps : (small 2 [(2, 0x0305), (63, 1)]).Running := by decide
theorem witness_StepEndsAtABoundaryOrAnEnd :
    after (small 0 [(0, 0x0305)]) (fun t => (t.q, t.stopped)) = some ([], false) ∧
    after (small 0 [(0, 0x0001)]) (·.halted) = some true ∧ after (small 0 [(0, 0x0002)]) (·.fault.isSome) = some true := by
  decide
theorem witness_QueueHoldsAtMostSixWords : QueueLegal (Fetch.sequence.drop 3 ++ Entry.subm) :=
  .inr ⟨3, 0x0503, Entry.subm, 0, by decide, by decide, rfl, by decide, rfl⟩
theorem witness_FlagsAreNeverConsulted :
    (small 0 []).q = [] ∧ isNext (step (small 0 [])) = true ∧
    faultOf (step { small 0 [] with halted := true }) = some .halted := by decide
theorem witness_SumIsDeadAtBoundaries : (small 0 []).q = [] ∧ isNext (step (small 0 [(0, 0x0500)])) = true := by decide
theorem witness_FetchForgetsIrAndAdb :
    (small 0 []).q = [] ∧ (small 0 []).pc.toNat < (small 0 []).memCells ∧ IsOpcode (opcodeCell (small 0 [])) :=
  ⟨rfl, by decide, .inl (by decide)⟩
theorem witness_LoadRejectsMalformedImages :
    ((2 : Nat) ≤ 2 ∧ (65536 : Nat) ≤ 65536) ∧
    ([0x94, 0, 2] : List Byte).length < 4 ∧ ([0x95, 0, 2, 0] : List Byte).take 2 ≠ [0x94, 0x00] ∧
    ([0x94, 0, 2, 0, 1] : List Byte).length % 2 = 1 ∧ ([0x94, 0, 2, 0] : List Byte).length % 2 = 0 := by decide
theorem witness_LoadPlacesTheBodyFromCellZero : loaded (v14 2) 16 1 (·.memCells) = .ok 16 := by decide
theorem witness_FirstFetchReadsByteOffsetTwiceTheEntry :
    loaded (v14 6) 16 1 (·.pc) = .ok 4 ∧ ((v14 6).getD 2 0).toNat + 256 * ((v14 6).getD 3 0).toNat = 6 ∧
    6 - 2 < 16 ∧ 2 * 6 + 1 < (v14 6).length := by decide
theorem witness_LoadedProgramStartsAtItsEntry :
    2 * [Instr.nop 0, Instr.hlt 0].length ≤ 4 ∧ 2 * 1 + 2 < 65536 ∧ [Instr.nop 0, Instr.hlt 0][1]? = some (.hlt 0) := by
  decide
theorem witness_LoadedMachineMeetsTheInvariant : loaded (v14 2) 2 0 (·.mem.length) = .ok 2 := by decide

end Sys2Proof.Tests
end

section
/-! PROOFS. HLT (R36, R106). A tick's phases ask their word for every signal but SUB and HLT: the lookahead alone reads
SUB (R104), the run flag and the events alone read HLT (R106). -/

namespace Sys2Proof

/-- Taking one signal out of a word takes out that signal and no other. -/
theorem ControlWord.has_filter_ne (w : ControlWord) (y x : Signal) :
    ControlWord.has (w.filter fun z => decide (z ≠ y)) x = (decide (x ≠ y) && w.has x) := by
  rw [Bool.eq_iff_iff]
  simp [ControlWord.has, and_comm]

namespace Machine

/-- The two words assert the same signals, SUB and HLT aside. -/
def SameButSubHlt (w w' : ControlWord) : Prop :=
  ∀ x, x ≠ .sub → x ≠ .hlt → w.has x = w'.has x

/-- A word and the word without its HLT assert the same other signals. -/
theorem sameButSubHlt_withoutHlt (w : ControlWord) :
    SameButSubHlt w (w.filter fun x => decide (x ≠ .hlt)) := by
  intro x _ hx
  rw [ControlWord.has_filter_ne, decide_eq_true hx, Bool.true_and]

section
variable {w w' : ControlWord} (h : SameButSubHlt w w')
include h

theorem driveReg_sameButSubHlt (s : State) (rs : List Reg) (rest : Word) :
    driveReg w s rs rest = driveReg w' s rs rest := by
  induction rs with
  | nil => rfl
  | cons r rs ih => simp only [driveReg, h (.drv r) (by simp) (by simp), ih]

theorem driveBus_sameButSubHlt (s : State) : driveBus w s = driveBus w' s := by
  simp only [driveBus, h .memDrv (by simp) (by simp), h .perDrv (by simp) (by simp), h .aluEn (by simp) (by simp),
    driveReg_sameButSubHlt h]

theorem writeMemory_sameButSubHlt (bus : Word) (s : State) : writeMemory w bus s = writeMemory w' bus s := by
  simp only [writeMemory, h .memLat (by simp) (by simp)]

theorem writePort_sameButSubHlt (bus : Word) (s : State) : writePort w bus s = writePort w' bus s := by
  simp only [writePort, h .perLat (by simp) (by simp)]

theorem latched_sameButSubHlt (bus : Word) (s : State) (r : Reg) : latched w bus s r = latched w' bus s r := by
  simp only [latched, h (.lat r) (by simp) (by simp)]

theorem latchedPc_sameButSubHlt (bus : Word) (s : State) : latchedPc w bus s = latchedPc w' bus s := by
  simp only [latchedPc, h .pci (by simp) (by simp), latched_sameButSubHlt h]

theorem latchesOperand_sameButSubHlt : w.latchesOperand = w'.latchesOperand := by
  simp only [ControlWord.latchesOperand, h (.lat .a) (by simp) (by simp), h (.lat .b) (by simp) (by simp)]

theorem recomputed_sameButSubHlt (bus : Word) (q : List ControlWord) (s : State) :
    recomputed w bus q s = recomputed w' bus q s := by
  simp only [recomputed, latchesOperand_sameButSubHlt h, latched_sameButSubHlt h]

theorem decodePoint_sameButSubHlt (rom : Ucode) (bus : Word) (q : List ControlWord) (s : State) :
    decodePoint rom w bus q s = decodePoint rom w' bus q s := by
  simp only [decodePoint, h .dec (by simp) (by simp), latched_sameButSubHlt h]

/-- The committed states differ in the run flag and the events at most. -/
theorem committed_sameButSubHlt (bus : Word) (mem : Memory) (ports : List Word) (q q' : List ControlWord) (s : State) :
    committed w bus mem ports q q' s =
      { committed w' bus mem ports q q' s with
        halted := s.halted || w.has .hlt, history := s.history ++ tickEvents w bus s } := by
  simp only [committed, latched_sameButSubHlt h, latchedPc_sameButSubHlt h, recomputed_sameButSubHlt h, inputsLeft,
    readsDone, h .perDrv (by simp) (by simp)]

/-- HLT adds the disconnect behind the word's other events (R106, R219). -/
theorem tickEvents_hlt (bus : Word) (s : State) (hw : w.has .hlt = true) (hw' : w'.has .hlt = false) :
    tickEvents w bus s = tickEvents w' bus s ++ [.disconnect] := by
  simp [tickEvents, hw, hw', h .perDrv (by simp) (by simp), h .perLat (by simp) (by simp)]

/-- HLT halts and disconnects on top of what the rest of the word does (R106). -/
theorem assertWord_addHlt {rom : Ucode} {q : List ControlWord} {s u : State} (hw : w.has .hlt = true)
    (hw' : w'.has .hlt = false) (hu : assertWord rom w' q s = .ok u) :
    assertWord rom w q s = .ok { u with halted := true, history := u.history ++ [.disconnect] } := by
  obtain ⟨bus, mem, ports, q', hbus, hmem, hports, hq, rfl⟩ := assertWord_ok.1 hu
  refine assertWord_ok.2 ⟨bus, mem, ports, q', ?_, ?_, ?_, ?_, ?_⟩
  · rw [driveBus_sameButSubHlt h, hbus]
  · rw [writeMemory_sameButSubHlt h, hmem]
  · rw [writePort_sameButSubHlt h, hports]
  · rw [decodePoint_sameButSubHlt h, hq]
  · rw [committed_sameButSubHlt h]
    simp [hw, tickEvents_hlt h bus s hw hw']

end

/-! ## When a tick and a meaning halt -/

/-- A committed tick of a running machine halts exactly when its word has HLT, and records no fault (R106). -/
theorem assertWord_halted {rom : Ucode} {w : ControlWord} {q : List ControlWord} {s t : State} (hs : s.Running)
    (h : assertWord rom w q s = .ok t) : t.halted = w.has .hlt ∧ t.fault = none := by
  obtain ⟨bus, mem, ports, q', -, -, -, -, rfl⟩ := assertWord_ok.1 h
  exact ⟨by simp [hs.1], hs.2⟩

/-- A tick halts exactly when its word has HLT and nothing is raised (R106). -/
theorem tickWith_halted_iff {rom : Ucode} {w : ControlWord} {q : List ControlWord} {s t : State} (hq : s.q = w :: q)
    (h : tickWith rom s = .next t) : t.halted = true ↔ w.has .hlt = true ∧ t.fault = none := by
  obtain ⟨hs, -, hraise | hcommit⟩ := tickWith_next h
  · obtain ⟨c, -, rfl⟩ := hraise
    simp [hs.1]
  · rw [hq] at hcommit
    obtain ⟨hhalt, hfault⟩ := assertWord_halted hs hcommit
    simp [hhalt, hfault]

/-- A halted machine has no tick (R222). -/
theorem tickWith_of_halted (rom : Ucode) {s : State} (h : s.halted = true) : tickWith rom s = .fault .halted :=
  tickWith_stopped (by simp [State.stopReason, h])

/-- A tick of a word without DEC that does not raise leaves the queue behind that word (R96, R105). -/
theorem tickWith_queue {rom : Ucode} {w : ControlWord} {q : List ControlWord} {s t : State} (hq : s.q = w :: q)
    (hd : w.has .dec = false) (h : tickWith rom s = .next t) : t.q = q := by
  obtain ⟨-, -, hraise | hcommit⟩ := tickWith_next h
  · obtain ⟨c, -, rfl⟩ := hraise
    simp [hq]
  · rw [hq] at hcommit
    exact assertWord_queue hd hcommit

/-- A queue without DEC that has HLT at most in its last word is used up when its ticks halt (R113). -/
theorem runTicks_halted_queue {rom : Ucode} {q : List ControlWord} {s t : State} (hq : s.q = q)
    (hd : Entry.noDec q = true) (hl : Entry.hltLast q = true) (h : runTicks rom q.length s = .next t)
    (ht : t.halted = true) : t.q = [] := by
  induction q generalizing s with
  | nil =>
    cases h
    exact hq
  | cons w q ih =>
    simp only [Entry.noDec, List.all_cons, Bool.and_eq_true, Bool.not_eq_true'] at hd
    simp only [Entry.hltLast, Bool.and_eq_true] at hl
    rw [List.length_cons, runTicks] at h
    cases hu : tickWith rom s with
    | fault r => rw [hu] at h; cases h
    | refused r => rw [hu] at h; cases h
    | next u =>
      have huq : u.q = q := tickWith_queue hq hd.1 hu
      simp only [hu] at h
      split at h
      · cases h
        have hhlt := ((tickWith_halted_iff hq hu).1 ht).1
        rw [huq]
        simpa [hhlt] using hl.1
      · exact ih huq hd.2 hl.2 h

/-- HLT stands at most in the last word of an instruction's microcode (R113 b, R118). -/
theorem microcode_hltLast (i : Instr) : Entry.hltLast i.microcode = true := by cases i <;> rfl

/-- The queue is empty when an instruction halts (R106). -/
theorem exec_halted_queue {i : Instr} {s t : State} (h : exec i s = .next t) (ht : t.halted = true) : t.q = [] := by
  rw [exec_eq_execute] at h
  cases hr : s.stopReason with
  | some r => rw [execute_stopped hr] at h; cases h
  | none =>
    rw [execute_running (State.stopReason_eq_none.1 hr)] at h
    exact runTicks_halted_queue (by rfl) (microcode_noDec i) (microcode_hltLast i) h ht

/-- In the reference ROM a word with HLT is HLT alone and ends its entry (R106, R118). -/
theorem reference_hlt_alone_and_last :
    ∀ row ∈ Ucode.reference, ∀ w ∈ row.2, w.has .hlt = true → w = [.hlt] ∧ row.2.getLast? = some w := by decide

/-- Settles O11: a tick commits or raises (`tickWith_halted_iff`), the other phases do not read HLT
(`assertWord_addHlt`), and an entry's HLT is its last word (`exec_halted_queue`). -/
theorem hltSignalIsTerminal : Obligations.HltSignalIsTerminal := by
  unfold Obligations.HltSignalIsTerminal
  refine ⟨?halts, ?effects, ?terminal, rfl, reference_hlt_alone_and_last, ?queue⟩
  case halts => exact fun _ _ _ _ _ _ hq h => tickWith_halted_iff hq h
  case effects =>
    intro rom w q s u _ hw hu
    exact assertWord_addHlt (sameButSubHlt_withoutHlt w) hw (by rw [ControlWord.has_filter_ne]; rfl) hu
  case terminal => exact fun rom _ h => tickWith_of_halted rom h
  case queue => exact fun _ _ _ h ht => exec_halted_queue h ht

end Machine

end Sys2Proof
end

section
/-! PROOFS. The memory signals (R53, R54). MEM_DRV acts in the drive phase and MEM_LAT in the write phase, and no
well-formed word has both (R93 b); the memory a tick commits is the one its write phase answers. -/

namespace Sys2Proof

/-- A well-formed word that reads memory does not write it (R93 b). -/
theorem ControlWord.memLat_of_memDrv {w : ControlWord} (hw : w.wf = true) (h : w.has .memDrv = true) :
    w.has .memLat = false := by
  simp only [ControlWord.wf, ControlWord.oneDirection, Bool.and_eq_true] at hw
  obtain ⟨⟨⟨⟨-, hmem, -⟩, -⟩, -⟩, -⟩ := hw
  simpa [h] using hmem

namespace Machine

/-! ## The phases behind the drive phase, signal by signal -/

theorem writeMemory_memLat {w : ControlWord} (h : w.has .memLat = true) (bus : Word) (s : State) :
    writeMemory w bus s = s.memWrite s.adr bus := by
  rw [writeMemory, if_pos h]

theorem writeMemory_no_memLat {w : ControlWord} (h : w.has .memLat = false) (bus : Word) (s : State) :
    writeMemory w bus s = .ok s.mem := by
  simp [writeMemory, h]

/-- The port write answers unless ADR names no peripheral (R101). -/
theorem writePort_answers {w : ControlWord} {s : State} (h : w.has .perLat = true → s.adr.toNat < s.nPorts)
    (bus : Word) : ∃ ports, writePort w bus s = .ok ports := by
  unfold writePort
  split
  next hw => exact ⟨_, State.perWrite_ok.2 ⟨h hw, rfl⟩⟩
  next => exact ⟨_, rfl⟩

theorem decodePoint_no_dec {w : ControlWord} (h : w.has .dec = false) (rom : Ucode) (bus : Word)
    (q : List ControlWord) (s : State) : decodePoint rom w bus q s = .ok q := by
  simp [decodePoint, h]

/-- A raise in the write phase is the tick's raise, when the drive phase answered (R208). -/
theorem assertWord_write_error {rom : Ucode} {w : ControlWord} {q : List ControlWord} {s : State} {bus : Word}
    {c : FatalCondition} (hbus : driveBus w s = .ok bus) (h : writeMemory w bus s = .error c) :
    assertWord rom w q s = .error c := by
  simp only [assertWord, hbus, h]

/-! ## MEM_DRV -/

/-- MEM_DRV alone reads the cell and has no other effect (R53). -/
theorem assertWord_memDrv (rom : Ucode) (q : List ControlWord) (s : State) (h : s.adr.toNat < s.memCells) :
    assertWord rom [.memDrv] q s = .ok { s with bus := 0, q := q } := by
  rw [assertWord, driveBus_memDrv (by simp), State.memRead_ok.2 ⟨h, rfl⟩]
  simp [writeMemory, writePort, decodePoint, committed, latched, latchedPc, recomputed, tickEvents, inputsLeft,
    readsDone, ControlWord.latchesOperand]

/-- A tick without MEM_LAT keeps memory (R100). -/
theorem assertWord_keeps_mem {rom : Ucode} {w : ControlWord} {q : List ControlWord} {s t : State}
    (hw : w.has .memLat = false) (h : assertWord rom w q s = .ok t) : t.mem = s.mem := by
  obtain ⟨bus, mem, ports, q', -, hmem, -, -, rfl⟩ := assertWord_ok.1 h
  rw [writeMemory_no_memLat hw] at hmem
  cases hmem
  rfl

/-! ## MEM_LAT -/

section
variable {rom : Ucode} {w : ControlWord} {q : List ControlWord} {s : State} {bus : Word}
  (hw : w.has .memLat = true) (hbus : driveBus w s = .ok bus)
include hw hbus

/-- A committed tick with MEM_LAT leaves memory with the Bus stored at ADR (R54, R100). -/
theorem assertWord_memLat_mem {t : State} (h : assertWord rom w q s = .ok t) :
    t.mem = s.mem.write s.adr.toNat bus := by
  obtain ⟨bus', mem, ports, q', hbus', hmem, -, -, rfl⟩ := assertWord_ok.1 h
  rw [hbus] at hbus'
  cases hbus'
  rw [writeMemory_memLat hw] at hmem
  exact (State.memWrite_ok.1 hmem).2

/-- A tick with MEM_LAT commits when ADR is in range and neither the port write nor the decode can raise (R208). -/
theorem assertWord_memLat_commits (hadr : s.adr.toNat < s.memCells)
    (hport : w.has .perLat = true → s.adr.toNat < s.nPorts) (hdec : w.has .dec = false) :
    ∃ t, assertWord rom w q s = .ok t := by
  obtain ⟨ports, hports⟩ := writePort_answers hport bus
  have hmem : writeMemory w bus s = .ok (s.mem.write s.adr.toNat bus) := by
    rw [writeMemory_memLat hw, State.memWrite_ok.2 ⟨hadr, rfl⟩]
  exact ⟨_, assertWord_ok.2 ⟨bus, _, ports, q, hbus, hmem, hports, decodePoint_no_dec hdec rom bus q s, rfl⟩⟩

/-- A store outside memory raises AddressError, in any word whose drive phase answered (R54). -/
theorem assertWord_memLat_raises (hadr : s.memCells ≤ s.adr.toNat) :
    assertWord rom w q s = .error (.addressError s.adr) :=
  assertWord_write_error hbus (by rw [writeMemory_memLat hw, State.memWrite_error.2 ⟨hadr, rfl⟩])

end

/-- Settles O8: a word with MEM_DRV has no MEM_LAT and so keeps memory (`assertWord_keeps_mem`); with MEM_LAT the
committed memory is the write of the Bus at ADR (`assertWord_memLat_mem`), read by `Memory.read_write`. -/
theorem memorySignalsAccessTheCellAtAdr : Obligations.MemorySignalsAccessTheCellAtAdr := by
  unfold Obligations.MemorySignalsAccessTheCellAtAdr
  refine ⟨assertWord_memDrv, fun rom w q s hwf => ⟨?read, ?readRaises, ?write, ?writeRaises⟩⟩
  case read =>
    intro hw hadr
    refine ⟨?_, fun t ht => assertWord_keeps_mem (ControlWord.memLat_of_memDrv hwf hw) ht⟩
    rw [driveBus_memDrv hw, State.memRead_ok.2 ⟨hadr, rfl⟩]
  case readRaises => exact assertWord_load_raises rom w q s
  case write =>
    intro bus hw hbus hadr
    refine ⟨fun t ht n => ?_, assertWord_memLat_commits hw hbus hadr⟩
    rw [assertWord_memLat_mem hw hbus ht, Memory.read_write]
  case writeRaises => exact fun bus hw hbus hadr => assertWord_memLat_raises hw hbus hadr

end Machine

end Sys2Proof
end

section
/-! PROOFS. What a committed tick leaves, register by register, and when a tick commits: the facts the sequencer's
statements share. -/

namespace Sys2Proof

/-- A well-formed word that latches PC does not increment it (R93 c). -/
theorem ControlWord.pci_of_lat_pc {w : ControlWord} (hw : w.wf = true) (h : w.has (.lat .pc) = true) :
    w.has .pci = false := by
  simp only [ControlWord.wf, ControlWord.onePcWrite, Bool.and_eq_true] at hw
  obtain ⟨⟨⟨-, hpc⟩, -⟩, -⟩ := hw
  simpa [h] using hpc

/-- A well-formed word that writes a port does not query one (R93 b). -/
theorem ControlWord.perDrv_of_perLat {w : ControlWord} (hw : w.wf = true) (h : w.has .perLat = true) :
    w.has .perDrv = false := by
  simp only [ControlWord.wf, ControlWord.oneDirection, Bool.and_eq_true] at hw
  obtain ⟨⟨⟨⟨-, -, hper⟩, -⟩, -⟩, -⟩ := hw
  simpa [h] using hper

/-- A well-formed word with DEC latches IR (R93 d). -/
theorem ControlWord.lat_ir_of_dec {w : ControlWord} (hw : w.wf = true) (h : w.has .dec = true) :
    w.has (.lat .ir) = true := by
  simp only [ControlWord.wf, ControlWord.decWithIr, Bool.and_eq_true] at hw
  obtain ⟨⟨-, hdec⟩, -⟩ := hw
  rw [h, Bool.not_true, Bool.false_or, Bool.and_eq_true, Bool.and_eq_true] at hdec
  exact hdec.1.1

namespace Machine

/-! ## The phases -/

theorem latched_of_lat {w : ControlWord} {r : Reg} (h : w.has (.lat r) = true) (bus : Word) (s : State) :
    latched w bus s r = bus := if_pos h

theorem reg_committed (w : ControlWord) (bus : Word) (mem : Memory) (ports : List Word) (q q' : List ControlWord)
    (s : State) (r : Reg) :
    (committed w bus mem ports q q' s).reg r = if r = .pc then latchedPc w bus s else latched w bus s r := by
  cases r <;> rfl

theorem subtractNext_eq (q : List ControlWord) : subtractNext q = q.head?.any fun x => x.has .sub := by
  cases q <;> rfl

/-- The memory write answers unless ADR is out of range (R100). -/
theorem writeMemory_answers {w : ControlWord} {s : State} (h : w.has .memLat = true → s.adr.toNat < s.memCells)
    (bus : Word) : ∃ mem, writeMemory w bus s = .ok mem := by
  unfold writeMemory
  split
  next hw => exact ⟨_, State.memWrite_ok.2 ⟨h hw, rfl⟩⟩
  next => exact ⟨_, rfl⟩

theorem writePort_perLat {w : ControlWord} (h : w.has .perLat = true) (bus : Word) (s : State) :
    writePort w bus s = s.perWrite s.adr bus := if_pos h

/-- A decode point that answers keeps what is left of the queue in front (R105). -/
theorem decodePoint_extends {rom : Ucode} {w : ControlWord} {bus : Word} {q q' : List ControlWord} {s : State}
    (h : decodePoint rom w bus q s = .ok q') : ∃ ws, q' = q ++ ws := by
  unfold decodePoint at h
  split at h
  next =>
    split at h
    next ws _ => exact ⟨ws, by simpa [eq_comm] using h⟩
    next => cases h
  next => exact ⟨[], by simpa [eq_comm] using h⟩

/-! ## Committed and raising ticks -/

/-- In a well-formed word every latched register takes the Bus value, PC too (R98). -/
theorem assertWord_latched {rom : Ucode} {w : ControlWord} {q : List ControlWord} {s t : State} {r : Reg} {bus : Word}
    (hw : w.wf = true) (hbus : driveBus w s = .ok bus) (hr : w.has (.lat r) = true)
    (h : assertWord rom w q s = .ok t) : t.reg r = bus := by
  obtain ⟨bus', mem, ports, q', hbus', -, -, -, rfl⟩ := assertWord_ok.1 h
  cases hbus.symm.trans hbus'
  rw [reg_committed]
  split
  next hpc =>
    subst hpc
    simp [latchedPc, ControlWord.pci_of_lat_pc hw hr, latched_of_lat hr]
  next => exact latched_of_lat hr bus s

/-- A committed tick leaves the rest of the queue in front of what it may append (R96, R105). -/
theorem assertWord_queue_extends {rom : Ucode} {w : ControlWord} {q : List ControlWord} {s t : State}
    (h : assertWord rom w q s = .ok t) : ∃ ws, t.q = q ++ ws := by
  obtain ⟨bus, mem, ports, q', -, -, -, hq, rfl⟩ := assertWord_ok.1 h
  exact decodePoint_extends hq

/-- A tick without DEC commits when its drive phase answers and its writes, if any, are in range (R208). -/
theorem assertWord_noDec_commits {w : ControlWord} {s : State} {bus : Word} (hbus : driveBus w s = .ok bus)
    (hmem : w.has .memLat = true → s.adr.toNat < s.memCells) (hport : w.has .perLat = true → s.adr.toNat < s.nPorts)
    (hdec : w.has .dec = false) (rom : Ucode) (q : List ControlWord) : ∃ t, assertWord rom w q s = .ok t := by
  obtain ⟨mem, hmem⟩ := writeMemory_answers hmem bus
  obtain ⟨ports, hports⟩ := writePort_answers hport bus
  exact ⟨_, assertWord_ok.2 ⟨bus, mem, ports, q, hbus, hmem, hports, decodePoint_no_dec hdec rom bus q s, rfl⟩⟩

/-- A raise in the port write is the tick's raise, when the phases before it answered (R208). -/
theorem assertWord_port_error {rom : Ucode} {w : ControlWord} {q : List ControlWord} {s : State} {bus : Word}
    {mem : Memory} {c : FatalCondition} (hbus : driveBus w s = .ok bus) (hmem : writeMemory w bus s = .ok mem)
    (h : writePort w bus s = .error c) : assertWord rom w q s = .error c := by
  simp only [assertWord, hbus, hmem, h]

/-- A raise at the decode point is the tick's raise, when the phases before it answered (R208). -/
theorem assertWord_decode_error {rom : Ucode} {w : ControlWord} {q : List ControlWord} {s : State} {bus : Word}
    {mem : Memory} {ports : List Word} {c : FatalCondition} (hbus : driveBus w s = .ok bus)
    (hmem : writeMemory w bus s = .ok mem) (hports : writePort w bus s = .ok ports)
    (h : decodePoint rom w bus q s = .error c) : assertWord rom w q s = .error c := by
  simp only [assertWord, hbus, hmem, hports, h]

/-- A tick that leaves no fault record has committed its word (R108). -/
theorem tickWith_commits {rom : Ucode} {s t : State} (h : tickWith rom s = .next t) (ht : t.fault = none) :
    assertWord rom (popped s.q).1 (popped s.q).2 s = .ok t := by
  obtain ⟨-, -, ⟨c, -, rfl⟩ | hcommit⟩ := tickWith_next h
  · simp at ht
  · exact hcommit

/-- Settles O5: a committed state and a raising state both have the Bus at 0. -/
theorem everyTickLeavesTheBusAtZero : Obligations.EveryTickLeavesTheBusAtZero := by
  unfold Obligations.EveryTickLeavesTheBusAtZero
  intro rom s t h
  obtain ⟨-, -, ⟨c, -, rfl⟩ | hcommit⟩ := tickWith_next h
  · exact State.takeFatal_bus s c _
  · obtain ⟨bus, mem, ports, q', -, -, -, -, rfl⟩ := assertWord_ok.1 hcommit
    exact committed_bus ..

end Machine

end Sys2Proof
end

section
/-! PROOFS. The ALU (R102 to R104). Only the lookahead of the tick before reads a word's SUB; what ALU_EN drives is the
`sum` that tick stored. -/

namespace Sys2Proof.Machine

/-- Words that agree on every signal but SUB do the same in their own tick (R104). -/
theorem assertWord_sameButSub {w w' : ControlWord} (h : SameButSubHlt w w') (hhlt : w.has .hlt = w'.has .hlt)
    (rom : Ucode) (q : List ControlWord) (s : State) : assertWord rom w q s = assertWord rom w' q s := by
  have hevents (bus : Word) : tickEvents w bus s = tickEvents w' bus s := by
    simp only [tickEvents, hhlt, h .perDrv (by simp) (by simp), h .perLat (by simp) (by simp)]
  have hcommitted (bus : Word) (mem : Memory) (ports : List Word) (q' : List ControlWord) :
      committed w bus mem ports q q' s = committed w' bus mem ports q q' s := by
    rw [committed_sameButSubHlt h, hhlt, hevents]
    rfl
  simp only [assertWord, driveBus_sameButSubHlt h, writeMemory_sameButSubHlt h, writePort_sameButSubHlt h,
    decodePoint_sameButSubHlt h, hcommitted]

/-- Taking SUB out of a word changes nothing in its own tick (R104). -/
theorem assertWord_withoutSub (rom : Ucode) (w : ControlWord) (q : List ControlWord) (s : State) :
    assertWord rom (w.filter fun x => decide (x ≠ .sub)) q s = assertWord rom w q s := by
  have hother {x : Signal} (hx : x ≠ .sub) :
      ControlWord.has (w.filter fun x => decide (x ≠ .sub)) x = w.has x := by
    rw [ControlWord.has_filter_ne, decide_eq_true hx, Bool.true_and]
  exact assertWord_sameButSub (fun x hx _ => hother hx) (hother (by simp)) rom q s

/-- With ALU_EN a latched register takes the stored `sum` (R103). -/
theorem assertWord_aluEn_latched {rom : Ucode} {w : ControlWord} {q : List ControlWord} {s t : State} {r : Reg}
    (hw : w.wf = true) (halu : w.has .aluEn = true) (hr : w.has (.lat r) = true)
    (h : assertWord rom w q s = .ok t) : t.reg r = s.sum :=
  assertWord_latched hw (driveBus_aluEn hw halu) hr h

/-- The `sum` a committed tick leaves: recomputed with the lookahead when A or B was latched, else kept (R102). -/
theorem assertWord_sum {rom : Ucode} {w : ControlWord} {q : List ControlWord} {s t : State}
    (h : assertWord rom w q s = .ok t) :
    t.sum = if w.has (.lat .a) = true ∨ w.has (.lat .b) = true then
        (if (q.head?.any fun x => x.has .sub) = true then t.a - t.b else t.a + t.b)
      else s.sum := by
  obtain ⟨bus, mem, ports, q', -, -, -, -, rfl⟩ := assertWord_ok.1 h
  simp only [committed_sum, committed_a, committed_b, recomputed, aluResult, ControlWord.latchesOperand,
    Bool.or_eq_true, subtractNext_eq]

/-- ACC takes from the ALU what the latch of A or B in the tick before made of the operands, SUB of the ALU_EN word
deciding which (R102 to R104). -/
theorem latch_then_aluEn_acc {rom : Ucode} {w w' : ControlWord} {q : List ControlWord} {s t u : State}
    (hq : s.q = w :: w' :: q) (hlatch : w.has (.lat .a) = true ∨ w.has (.lat .b) = true)
    (halu : w'.has .aluEn = true) (hacc : w'.has (.lat .acc) = true) (ht : tickWith rom s = .next t)
    (hrun : t.Running) (hu : tickWith rom t = .next u) (hfault : u.fault = none) :
    u.acc = if w'.has .sub = true then t.a - t.b else t.a + t.b := by
  have hfirst := tickWith_commits ht hrun.2
  rw [hq, popped_cons] at hfirst
  obtain ⟨ws, htq⟩ := assertWord_queue_extends hfirst
  have hpop : popped t.q = (w', q ++ ws) := by rw [htq, List.cons_append, popped_cons]
  have hwf' := (tickWith_next hu).2.1
  have hsecond := tickWith_commits hu hfault
  rw [hpop] at hwf' hsecond
  calc u.acc
    _ = t.sum := assertWord_aluEn_latched (r := .acc) hwf' halu hacc hsecond
    _ = if w'.has .sub = true then t.a - t.b else t.a + t.b := by
      rw [assertWord_sum hfirst, if_pos hlatch]
      rfl

/-- Settles O7: no phase of its own tick reads a word's SUB (`assertWord_withoutSub`); the recompute of a latch of A or
B does, one word ahead (`assertWord_sum`), and the next word stands there still (`latch_then_aluEn_acc`). -/
theorem aluLooksAheadForSubtract : Obligations.AluLooksAheadForSubtract := by
  unfold Obligations.AluLooksAheadForSubtract
  refine ⟨assertWord_withoutSub, ?drives, fun _ _ _ _ _ h => assertWord_sum h, ?overTwoTicks⟩
  case drives =>
    intro rom w q s t r hw halu
    exact ⟨driveBus_aluEn hw halu, fun h hr => assertWord_aluEn_latched hw halu hr h⟩
  case overTwoTicks =>
    intro rom w w' q s t u _ hq hlatch halu hacc ht hrun hu hfault
    exact latch_then_aluEn_acc hq hlatch halu hacc ht hrun hu hfault

end Sys2Proof.Machine
end

section
/-! PROOFS. The port write (R101, R217). PER_LAT acts in the write phase; no well-formed word has PER_DRV beside it
(R93 b), so its event is the only port event of the tick. -/

namespace Sys2Proof.Machine

section
variable {rom : Ucode} {w : ControlWord} {q : List ControlWord} {s : State} {bus : Word}
  (hw : w.has .perLat = true) (hbus : driveBus w s = .ok bus)
include hw hbus

/-- A committed tick with PER_LAT leaves the Port Table with the Bus in the slot ADR names (R101). -/
theorem assertWord_perLat_ports {t : State} (h : assertWord rom w q s = .ok t) :
    t.ports = s.ports.set s.adr.toNat bus := by
  obtain ⟨bus', mem, ports, q', hbus', -, hports, -, rfl⟩ := assertWord_ok.1 h
  cases hbus.symm.trans hbus'
  rw [writePort_perLat hw] at hports
  exact (State.perWrite_ok.1 hports).2

/-- A committed tick with PER_LAT adds its one output event, and the disconnect behind it when the word has HLT
(R106, R217, R219). -/
theorem assertWord_perLat_history (hwf : w.wf = true) {t : State} (h : assertWord rom w q s = .ok t) :
    t.history = s.history ++
      .portWrite s.adr.toNat bus :: (if w.has .hlt = true then [.disconnect] else []) := by
  obtain ⟨bus', mem, ports, q', hbus', -, -, -, rfl⟩ := assertWord_ok.1 h
  cases hbus.symm.trans hbus'
  simp [tickEvents, hw, ControlWord.perDrv_of_perLat hwf hw]

/-- A write to no peripheral raises PortError, in any word whose earlier phases answered (R203). -/
theorem assertWord_perLat_raises (hmem : w.has .memLat = true → s.adr.toNat < s.memCells)
    (hport : s.nPorts ≤ s.adr.toNat) :
    assertWord rom w q s = .error (.portError s.adr) := by
  obtain ⟨mem, hmem⟩ := writeMemory_answers hmem bus
  exact assertWord_port_error hbus hmem (by rw [writePort_perLat hw, State.perWrite_error.2 ⟨hport, rfl⟩])

end

/-- Settles O9: the committed Port Table and history of a word with PER_LAT (`assertWord_perLat_ports`,
`assertWord_perLat_history`), and its raise (`assertWord_perLat_raises`). -/
theorem portWriteIsOneOutputEvent : Obligations.PortWriteIsOneOutputEvent := by
  unfold Obligations.PortWriteIsOneOutputEvent
  intro rom w q s bus hwf hw hmem hbus
  refine ⟨fun hport => ⟨fun t ht => ?_, fun hdec => assertWord_noDec_commits hbus hmem (fun _ => hport) hdec rom q⟩,
    assertWord_perLat_raises hw hbus hmem⟩
  refine ⟨assertWord_perLat_ports hw hbus ht, _, assertWord_perLat_history hw hbus hwf ht, fun p v => ?_⟩
  split <;> simp

end Sys2Proof.Machine
end

section
/-! PROOFS. The decode point (R105) and what a well-formed ROM says of its entries (R112, R113). -/

namespace Sys2Proof

/-- An entry found is a row of the ROM. -/
theorem Ucode.entry_mem {op : Word} {ws : List ControlWord} :
    ∀ {rom : Ucode}, Ucode.entry op rom = some ws → (op, ws) ∈ rom
  | [], h => by cases h
  | row :: rom, h => by
    rw [Ucode.entry] at h
    split at h
    next hop =>
      cases h
      exact hop ▸ List.mem_cons_self
    next => exact .tail _ (Ucode.entry_mem h)

theorem Ucode.wf_row {rom : Ucode} (h : rom.wf = true) {row : Word × List ControlWord} (hrow : row ∈ rom) :
    Entry.wf row.2 = true := by
  simp only [Ucode.wf, Bool.and_eq_true, List.all_eq_true] at h
  exact h.2 row hrow

/-- The parts of an entry's well-formedness the sequencer depends on (R112, R113 a, b). -/
theorem Entry.wf_parts {ws : List ControlWord} (h : Entry.wf ws = true) :
    ws.length ≤ Config.maxWords ∧ Entry.noDec ws = true ∧ Entry.hltLast ws = true := by
  simp only [Entry.wf, Bool.and_eq_true, decide_eq_true_eq] at h
  obtain ⟨⟨⟨⟨hlen, -⟩, hdec⟩, hhlt⟩, -⟩ := h
  exact ⟨hlen, hdec, hhlt⟩

/-- No word of a well-formed ROM has DEC (R113 a). -/
theorem Ucode.wf_noDec {rom : Ucode} (h : rom.wf = true) {row : Word × List ControlWord} (hrow : row ∈ rom)
    {w : ControlWord} (hw : w ∈ row.2) : w.has .dec = false := by
  have hdec := (Entry.wf_parts (Ucode.wf_row h hrow)).2.1
  simpa using List.all_eq_true.1 hdec w hw

/-- Of the fetch words only the third has DEC (R109). -/
theorem Fetch.dec_iff_word3 : ∀ w ∈ Fetch.sequence, w.has .dec = true ↔ w = Fetch.word3 := by decide

namespace Machine

section
variable {rom : Ucode} {w : ControlWord} {bus : Word} (hw : w.wf = true) (hdec : w.has .dec = true)
include hw hdec

/-- In a well-formed word the decode point looks up the Bus value and appends its entry (R105). -/
theorem decodePoint_entry {ws : List ControlWord} (he : Ucode.entry bus rom = some ws) (q : List ControlWord)
    (s : State) : decodePoint rom w bus q s = .ok (q ++ ws) := by
  simp [decodePoint, hdec, latched_of_lat (ControlWord.lat_ir_of_dec hw hdec), he]

/-- The decode point raises InvalidOpcode on a Bus value without an entry (R105, R201). -/
theorem decodePoint_no_entry (he : Ucode.entry bus rom = none) (q : List ControlWord) (s : State) :
    decodePoint rom w bus q s = .error (.invalidOpcode s.adr bus) := by
  simp [decodePoint, hdec, latched_of_lat (ControlWord.lat_ir_of_dec hw hdec), he]

variable {q : List ControlWord} {s : State} (hmem : w.has .memLat = true → s.adr.toNat < s.memCells)
  (hport : w.has .perLat = true → s.adr.toNat < s.nPorts) (hbus : driveBus w s = .ok bus)
include hmem hport hbus

/-- A tick with DEC of an opcode with an entry commits, with the entry behind what is left of the queue (R105). -/
theorem assertWord_dec_commits {ws : List ControlWord} (he : Ucode.entry bus rom = some ws) :
    ∃ t, assertWord rom w q s = .ok t ∧ t.q = q ++ ws := by
  obtain ⟨mem, hmem⟩ := writeMemory_answers hmem bus
  obtain ⟨ports, hports⟩ := writePort_answers hport bus
  exact ⟨_, assertWord_ok.2 ⟨bus, mem, ports, q ++ ws, hbus, hmem, hports, decodePoint_entry hw hdec he q s, rfl⟩, rfl⟩

/-- A tick with DEC of an opcode without an entry raises InvalidOpcode (R105). -/
theorem assertWord_dec_raises (he : Ucode.entry bus rom = none) :
    assertWord rom w q s = .error (.invalidOpcode s.adr bus) := by
  obtain ⟨mem, hmem⟩ := writeMemory_answers hmem bus
  obtain ⟨ports, hports⟩ := writePort_answers hport bus
  exact assertWord_decode_error hbus hmem hports (decodePoint_no_entry hw hdec he q s)

end

/-- A tick whose word is asserted without a raise answers the committed state (R94 to R96, R120). -/
theorem tickWith_of_commit {rom : Ucode} {w : ControlWord} {q : List ControlWord} {s t : State} (hs : s.Running)
    (hq : s.q = w :: q) (hw : w.wf = true) (h : assertWord rom w q s = .ok t) : tickWith rom s = .next t := by
  rw [tickWith_running hs, hq, popped_cons, tickWord, if_pos hw, h]

/-- A tick whose word raises takes the condition, with the word popped (R108; D17). -/
theorem tickWith_of_raise {rom : Ucode} {w : ControlWord} {q : List ControlWord} {s : State} {c : FatalCondition}
    (hs : s.Running) (hq : s.q = w :: q) (hw : w.wf = true) (h : assertWord rom w q s = .error c) :
    tickWith rom s = .next (s.takeFatal c q) := by
  rw [tickWith_running hs, hq, popped_cons, tickWord, if_pos hw, h]

/-- Settles O10: a word with DEC commits with the entry appended (`assertWord_dec_commits`) or raises
(`assertWord_dec_raises`); R113 (a) keeps DEC out of the entries (`Ucode.wf_noDec`). -/
theorem decodeAppendsTheEntryAtTheTail : Obligations.DecodeAppendsTheEntryAtTheTail := by
  unfold Obligations.DecodeAppendsTheEntryAtTheTail
  refine ⟨?decode, Fetch.dec_iff_word3, fun _ h _ hrow _ hw => Ucode.wf_noDec h hrow hw⟩
  intro rom w q s bus hs hq hw hdec hmem hport hbus
  constructor
  · intro ws he
    obtain ⟨t, ht, htq⟩ := assertWord_dec_commits (q := q) hw hdec hmem hport hbus he
    have hir : t.ir = bus := assertWord_latched (r := .ir) hw hbus (ControlWord.lat_ir_of_dec hw hdec) ht
    exact ⟨t, tickWith_of_commit hs hq hw ht, hir, htq, (assertWord_halted hs ht).2⟩
  · intro he
    have hraise := assertWord_dec_raises (q := q) hw hdec hmem hport hbus he
    exact ⟨_, tickWith_of_raise hs hq hw hraise, rfl, rfl⟩

end Machine

end Sys2Proof
end

section
/-! PROOFS. How many ticks an instruction takes (R114). Fetch ticks 1 to 3 are run one by one up to the decode; from
there no queued word decodes and HLT stands at most in the last, so the queue drains one word a tick. -/

namespace Sys2Proof.Machine

/-- `n` ticks of `s` lead to `u`, and the machine still runs there. -/
def Reaches (rom : Ucode) (n : Nat) (s u : State) : Prop := runTicks rom n s = .next u ∧ u.Running

theorem Reaches.refl {rom : Ucode} {s : State} (hs : s.Running) : Reaches rom 0 s s := ⟨rfl, hs⟩

/-- A run goes on from a state it reaches. -/
theorem Reaches.runTicks_add {rom : Ucode} {m : Nat} {s u : State} (h : Reaches rom m s u) (hs : s.Running) (n : Nat) :
    runTicks rom (m + n) s = runTicks rom n u := by
  rw [Machine.runTicks_add hs, h.1, thenTicks, State.stopped_eq_false.2 h.2]
  rfl

theorem Reaches.trans {rom : Ucode} {m n : Nat} {s u v : State} (h : Reaches rom m s u) (hs : s.Running)
    (h' : Reaches rom n u v) : Reaches rom (m + n) s v :=
  ⟨(h.runTicks_add hs n).trans h'.1, h'.2⟩

/-- A tick that answers a running state reaches it. -/
theorem Reaches.of_tickWith {rom : Ucode} {s u : State} (h : tickWith rom s = .next u) (hu : u.Running) :
    Reaches rom 1 s u := by
  refine ⟨?_, hu⟩
  rw [runTicks, h]
  simp [State.stopped_eq_false.2 hu]

/-- A committed tick that leaves the machine running reaches the committed state. -/
theorem Reaches.of_commit {rom : Ucode} {w : ControlWord} {q : List ControlWord} {s u : State} (hs : s.Running)
    (hq : popped s.q = (w, q)) (hw : w.wf = true) (h : assertWord rom w q s = .ok u) (hu : u.Running) :
    Reaches rom 1 s u :=
  ⟨runTicks_ok hs hq hw h hu, hu⟩

/-- What a run of at least one tick can do when it answers a next state. -/
theorem runTicks_succ_next {rom : Ucode} {n : Nat} {s t : State} (h : runTicks rom (n + 1) s = .next t) :
    ∃ u, tickWith rom s = .next u ∧ ((u.stopped = true ∧ t = u) ∨ (u.Running ∧ runTicks rom n u = .next t)) := by
  rw [runTicks] at h
  cases hu : tickWith rom s with
  | fault r => rw [hu] at h; cases h
  | refused r => rw [hu] at h; cases h
  | next u =>
    simp only [hu] at h
    split at h
    next hst => cases h; exact ⟨t, rfl, .inl ⟨hst, rfl⟩⟩
    next hst => exact ⟨u, rfl, .inr ⟨State.stopped_eq_false.1 (Bool.eq_false_iff.2 hst), h⟩⟩

/-- The tick that stops a machine without a raise, on a queue with HLT at most in its last word, has popped that last
word (R106, R113 b). -/
theorem tickWith_stops_at_last {rom : Ucode} {w : ControlWord} {q : List ControlWord} {s t : State}
    (hq : s.q = w :: q) (hl : Entry.hltLast (w :: q) = true) (h : tickWith rom s = .next t)
    (hst : t.stopped = true) (hfault : t.fault = none) : q = [] := by
  have hhalt : t.halted = true := by simpa [State.stopped, State.stopReason, hfault] using hst
  have hhlt := ((tickWith_halted_iff hq h).1 hhalt).1
  simp only [Entry.hltLast, Bool.and_eq_true] at hl
  simpa [hhlt] using hl.1

/-- A queue without DEC that has HLT at most in its last word drains one word a tick when nothing is raised: the
machine runs with the rest of the queue at every earlier boundary (R96, R114). -/
theorem runTicks_drains {rom : Ucode} {q : List ControlWord} {s t : State} (hs : s.Running) (hq : s.q = q)
    (hd : Entry.noDec q = true) (hl : Entry.hltLast q = true) (h : runTicks rom q.length s = .next t)
    (hfault : t.fault = none) :
    t.q = [] ∧ ∀ n < q.length, ∃ u, Reaches rom n s u ∧ u.q = q.drop n := by
  induction q generalizing s with
  | nil =>
    cases h
    exact ⟨hq, by simp⟩
  | cons w q ih =>
    obtain ⟨hwd, hqd⟩ : w.has .dec = false ∧ Entry.noDec q = true := by simpa [Entry.noDec] using hd
    obtain ⟨-, hql⟩ := Bool.and_eq_true_iff.1 hl
    obtain ⟨u, hu, hend⟩ := runTicks_succ_next h
    have huq : u.q = q := tickWith_queue hq hwd hu
    rcases hend with ⟨hst, rfl⟩ | ⟨hrun, hrest⟩
    · obtain rfl := tickWith_stops_at_last hq hl hu hst hfault
      refine ⟨huq, fun n hn => ?_⟩
      obtain rfl : n = 0 := by simpa using hn
      exact ⟨s, .refl hs, hq⟩
    · obtain ⟨htq, hbefore⟩ := ih hrun huq hqd hql hrest
      refine ⟨htq, fun n hn => ?_⟩
      cases n with
      | zero => exact ⟨s, .refl hs, hq⟩
      | succ n =>
        obtain ⟨v, hv, hvq⟩ := hbefore n (by simpa using hn)
        exact ⟨v, Nat.add_comm 1 n ▸ (Reaches.of_tickWith hu hrun).trans hs hv, hvq⟩

/-- A copy tick reaches the latched state. -/
theorem Reaches.of_copy {rom : Ucode} {r d : Reg} {q : List ControlWord} {s : State} (hs : s.Running)
    (hq : popped s.q = ([.drv r, .lat d], q)) : Reaches rom 1 s (s.latch q d (s.reg r)) :=
  .of_commit hs hq (ControlWord.wf_copy r d) (assertWord_copy rom r d q s) (by simpa [State.Running] using hs)

/-- Fetch ticks 1 to 3 of an idle machine whose cell at PC is an opcode of the ROM: the third appends the entry
(R109, R114). -/
theorem fetch_reaches_decode {rom : Ucode} {s : State} {ws : List ControlWord} (hs : s.Idle)
    (hpc : s.pc.toNat < s.memCells) (he : Ucode.entry (opcodeCell s) rom = some ws) :
    ∃ u₁ u₂ u₃, (Reaches rom 1 s u₁ ∧ u₁.q = Fetch.sequence.drop 1) ∧
      (Reaches rom 2 s u₂ ∧ u₂.q = Fetch.sequence.drop 2) ∧
      (Reaches rom 3 s u₃ ∧ u₃.q = Fetch.sequence.drop 3 ++ ws) := by
  obtain ⟨hrun, hq⟩ := hs
  have h1 : Reaches rom 1 s (s.latch (Fetch.sequence.drop 1) .adb s.adr) := .of_copy hrun (by rw [hq]; rfl)
  generalize hu1 : s.latch (Fetch.sequence.drop 1) .adb s.adr = u₁ at h1
  have h2 : Reaches rom 1 u₁ (u₁.latch (Fetch.sequence.drop 2) .adr u₁.pc) :=
    .of_copy h1.2 (by rw [← hu1, State.latch_q]; rfl)
  generalize hu2 : u₁.latch (Fetch.sequence.drop 2) .adr u₁.pc = u₂ at h2
  have hadr : u₂.adr = s.pc := by
    subst hu2 hu1
    rfl
  have hmem : u₂.mem = s.mem := by simp [← hu2, ← hu1]
  have hcells : u₂.memCells = s.memCells := by simp [← hu2, ← hu1]
  have hcommit := assertWord_fetch3 rom (Fetch.sequence.drop 3) ws u₂ (by rwa [hadr, hcells])
    (by rw [hadr, hmem]; exact he)
  have h3 := Reaches.of_commit h2.2 (by rw [← hu2, State.latch_q]; rfl) rfl hcommit h2.2
  have h12 := h1.trans hrun h2
  exact ⟨u₁, u₂, _, ⟨h1, by rw [← hu1, State.latch_q]⟩, ⟨h12, by rw [← hu2, State.latch_q]⟩, h12.trans hrun h3, rfl⟩

/-- The fetch words behind the decode have no DEC, so the queue decodes exactly when the entry does (R109). -/
theorem noDec_afterDecode (ws : List ControlWord) : Entry.noDec (Fetch.sequence.drop 3 ++ ws) = Entry.noDec ws := rfl

/-- The fetch words behind the decode have no HLT, so it stands last in the queue when it does in the entry (R109). -/
theorem hltLast_afterDecode (ws : List ControlWord) :
    Entry.hltLast (Fetch.sequence.drop 3 ++ ws) = Entry.hltLast ws := rfl

/-- Settles O22: three fetch ticks reach the decode (`fetch_reaches_decode`); the three fetch words and `k` execute
words queued there drain one a tick (`runTicks_drains`). -/
theorem instructionTakesSixPlusKTicks : Obligations.InstructionTakesSixPlusKTicks := by
  unfold Obligations.InstructionTakesSixPlusKTicks
  intro rom s t ws hrom hs hpc _ he ht hfault
  obtain ⟨hlen, hdec, hhlt⟩ := Entry.wf_parts (Ucode.wf_row hrom (Ucode.entry_mem he))
  obtain ⟨u₁, u₂, u₃, ⟨h1, hq1⟩, ⟨h2, hq2⟩, h3, hq3⟩ := fetch_reaches_decode hs hpc he
  have hticks : Config.fetchLen + ws.length = 3 + (Fetch.sequence.drop 3 ++ ws).length := by
    rw [List.length_append]
    simp only [Config.fetchLen, Fetch.sequence, Fetch.rest, List.drop, List.length]
    omega
  rw [hticks, h3.runTicks_add hs.1] at ht
  obtain ⟨htq, hbefore⟩ := runTicks_drains h3.2 hq3 (by rwa [noDec_afterDecode])
    (by rwa [hltLast_afterDecode]) ht hfault
  refine ⟨hlen, htq, fun n hpos hn => ?_, ⟨u₂, h2.1, hq2⟩, ⟨u₃, h3.1, hq3⟩⟩
  rcases (by omega : n = 1 ∨ n = 2 ∨ 3 ≤ n) with rfl | rfl | h
  · exact ⟨u₁, h1.1, h1.2, by rw [hq1]; decide⟩
  · exact ⟨u₂, h2.1, h2.2, by rw [hq2]; decide⟩
  · obtain ⟨m, rfl⟩ := Nat.exists_eq_add_of_le h
    have hm : m < (Fetch.sequence.drop 3 ++ ws).length := by omega
    obtain ⟨u, hu, huq⟩ := hbefore m hm
    have hreach := h3.trans hs.1 hu
    refine ⟨u, hreach.1, hreach.2, ?_⟩
    rw [huq, ← List.length_pos_iff, List.length_drop]
    omega

end Sys2Proof.Machine
end

section
/-! PROOFS. One instruction from a boundary: its fetch, committed tick by tick (R109, R110), then its meaning (R116). -/

namespace Sys2Proof.Machine

/-- The six fetch ticks of an idle machine whose two cells at PC exist and whose opcode the ROM maps (R109, R110). -/
theorem fetch_reaches_afterFetch {rom : Ucode} {s : State} {ws : List ControlWord} (hs : s.Idle)
    (hpc : s.pc.toNat < s.memCells) (hpc1 : (s.pc + 1).toNat < s.memCells)
    (he : Ucode.entry (opcodeCell s) rom = some ws) : Reaches rom Config.fetchLen s (afterFetch s ws) := by
  obtain ⟨hrun, hq⟩ := hs
  have h1 : Reaches rom 1 s { s with adb := s.adr, bus := 0, q := Fetch.sequence.drop 1 } :=
    .of_copy hrun (by rw [hq]; rfl)
  have h2 : Reaches rom 1 _ { s with adb := s.adr, adr := s.pc, bus := 0, q := Fetch.sequence.drop 2 } :=
    .of_copy h1.2 rfl
  have h3 : Reaches rom 1 _ { s with ir := opcodeCell s, pc := s.pc + 1, adb := s.adr, adr := s.pc, bus := 0,
                                     q := Fetch.sequence.drop 3 ++ ws } :=
    .of_commit h2.2 rfl rfl (assertWord_fetch3 rom _ ws _ hpc he) hrun
  have h4 : Reaches rom 1 _ { s with ir := opcodeCell s, pc := s.pc + 1, adb := s.adr, adr := s.pc + 1, bus := 0,
                                     q := Fetch.sequence.drop 4 ++ ws } :=
    .of_copy h3.2 rfl
  have h5 : Reaches rom 1 _ { s with ir := operandCell s, pc := s.pc + 1 + 1, adb := s.adr, adr := s.pc + 1, bus := 0,
                                     q := Fetch.sequence.drop 5 ++ ws } :=
    .of_commit h4.2 rfl rfl (assertWord_fetch5 rom _ _ hpc1) hrun
  have h6 : Reaches rom 1 _ { s with ir := operandCell s, pc := s.pc + 1 + 1, adb := s.adr, bus := 0, q := ws } :=
    .of_copy h5.2 rfl
  have hall := ((((h1.trans hrun h2).trans hrun h3).trans hrun h4).trans hrun h5).trans hrun h6
  rwa [BitVec.add_assoc] at hall

/-- A step of an idle machine is the meaning of the instruction at PC, from the state its fetch leaves (R110, R116). -/
theorem step_eq_exec {s : State} {i : Instr} (hs : s.Idle) (hpc : s.pc.toNat < s.memCells)
    (hpc1 : (s.pc + 1).toNat < s.memCells) (hi : decodeCells (opcodeCell s) (operandCell s) = .ok i) :
    step s = exec i (afterFetch s i.microcode) := by
  have he : Ucode.entry (opcodeCell s) Ucode.reference = some i.microcode := by
    rw [(decodeCells_ok.1 hi).1]
    exact entry_microcode i
  obtain ⟨hticks, hrun⟩ := fetch_reaches_afterFetch hs hpc hpc1 he
  have hfetch : fetchInstruction s = .instruction i (afterFetch s i.microcode) := by
    simp only [fetchInstruction, hticks, State.stopped_eq_false.2 hrun, afterFetch_ir, hi, Bool.false_eq_true, if_false]
  simp only [step, hs.1.stopReason, hs.2, hfetch]

end Sys2Proof.Machine
end

section
/-! PROOFS. The meanings of IN and OUT (R188, R189) and of the direct-address forms (R151 to R166, R173, R174), each the
run of its entry. -/

namespace Sys2Proof.Machine

section
variable {s : State} (hs : s.Running)
include hs

/-- IN with B a port (R188, R216). -/
theorem exec_inp (opd : Word) (hb : s.b.toNat < s.nPorts) :
    exec (.inp opd) s = .next { s.afterExecute opd with
      io := s.presented s.b, inputs := s.inputs.tail, perReads := s.perReads + 1,
      history := s.history ++ [.portRead s.b.toNat (s.presented s.b)] } :=
  (execute_running hs).trans (runTicks_ok hs rfl rfl (assertWord_in _ _ _ hb) hs)

/-- OUT with ADR a port: IO takes ACC, then the slot takes IO (R189, R217). -/
theorem exec_out (opd : Word) (hadr : s.adr.toNat < s.nPorts) :
    exec (.out opd) s = .next { s.afterExecute opd with
      io := s.acc, ports := s.ports.set s.adr.toNat s.acc,
      history := s.history ++ [.portWrite s.adr.toNat s.acc] } :=
  calc exec (.out opd) s
    _ = runTicks _ 2 { s with ir := opd, q := Entry.out } := execute_running hs
    _ = runTicks _ 1 { s.afterExecute opd with io := s.acc, q := Entry.out.drop 1 } :=
      runTicks_ok hs rfl rfl (assertWord_copy ..) hs
    _ = _ := runTicks_ok hs rfl rfl (assertWord_out _ _ _ hadr) hs

/-- The first execute tick of a direct-address form puts the operand in ADR (R118). -/
theorem execute_direct (ws : List ControlWord) (opd : Word) :
    execute ([.drv .ir, .lat .adr] :: ws) opd s =
      runTicks Ucode.reference ws.length { s.afterExecute opd with adr := opd, q := ws } :=
  (execute_running hs).trans (runTicks_ok hs rfl rfl (assertWord_copy ..) hs)

variable {opd : Word} (hopd : opd.toNat < s.memCells)
include hopd

/-- LD r: ADR takes the operand, then r the cell (R152 to R156). -/
theorem execute_ld (r : Reg) :
    execute (Entry.ld r) opd s = .next
      ((((s.afterExecute opd).setReg .adr opd).setReg r (s.mem.read opd.toNat)).recomputeSum r) :=
  calc execute (Entry.ld r) opd s
    _ = runTicks _ 1 _ := execute_direct hs [[.memDrv, .lat r]] opd
    _ = .next (State.latch _ [] r (s.mem.read opd.toNat)) :=
      runTicks_ok hs rfl (ControlWord.wf_load r) (assertWord_load _ _ _ _ hopd) (by simpa [State.Running] using hs)
    _ = _ := by cases r <;> rfl

/-- ST r: ADR takes the operand, then the cell r, which for ADR is the operand (R162 to R166). -/
theorem execute_st (r : Reg) :
    execute (Entry.st r) opd s = .next { s.afterExecute opd with
      adr := opd, mem := s.mem.write opd.toNat (((s.afterExecute opd).setReg .adr opd).reg r) } :=
  calc execute (Entry.st r) opd s
    _ = runTicks _ 1 _ := execute_direct hs [[.drv r, .memLat]] opd
    _ = .next { s.afterExecute opd with adr := opd, mem := s.mem.write opd.toNat (State.reg _ r) } :=
      runTicks_ok hs rfl (ControlWord.wf_store r) (assertWord_store _ _ _ _ hopd) hs
    _ = _ := by cases r <;> rfl

/-- ADDM: B takes the cell, ACC the sum (R173). -/
theorem exec_addm :
    exec (.addm opd) s = .next { s.afterExecute opd with
      adr := opd, b := s.mem.read opd.toNat, sum := s.a + s.mem.read opd.toNat, acc := s.a + s.mem.read opd.toNat } :=
  calc exec (.addm opd) s
    _ = runTicks _ 2 _ := execute_direct hs (Entry.addm.drop 1) opd
    _ = runTicks _ 1 _ := runTicks_ok hs rfl rfl (assertWord_load _ _ _ _ hopd) hs
    _ = _ := runTicks_ok hs rfl rfl (assertWord_alu ..).1 hs

/-- SUBM: B takes the cell, ACC the difference (R174). -/
theorem exec_subm :
    exec (.subm opd) s = .next { s.afterExecute opd with
      adr := opd, b := s.mem.read opd.toNat, sum := s.a - s.mem.read opd.toNat, acc := s.a - s.mem.read opd.toNat } :=
  calc exec (.subm opd) s
    _ = runTicks _ 2 _ := execute_direct hs (Entry.subm.drop 1) opd
    _ = runTicks _ 1 _ := runTicks_ok hs rfl rfl (assertWord_load _ _ _ _ hopd) hs
    _ = _ := runTicks_ok hs rfl rfl (assertWord_alu ..).2 hs

end

/-- A stopped machine has no meaning to run (R222). -/
theorem running_of_exec {i : Instr} {s t : State} (h : exec i s = .next t) : s.Running := by
  rw [exec_eq_execute] at h
  cases hr : s.stopReason with
  | none => exact State.stopReason_eq_none.1 hr
  | some r => rw [execute_stopped hr] at h; cases h

end Sys2Proof.Machine
end

section
/-! PROOFS. The two port selectors (R190): IN reads the port B names, OUT writes the port ADR names, and neither latches
a selector; the direct-address forms do (R241, R242). -/

namespace Sys2Proof

/-- The direct-address forms are the loads, the stores, ADDM and SUBM, each with its entry of R118 (R80). -/
theorem Instr.memoryAddress_cases {i : Instr} {addr : Word} (h : i.memoryAddress = some addr) :
    i.operand = addr ∧
      ((∃ r, i.loadReg = some r ∧ i.microcode = Entry.ld r) ∨
        (∃ r, i.loadReg = none ∧ i.storeReg = some r ∧ i.microcode = Entry.st r) ∨
        i = .addm addr ∨ i = .subm addr) := by
  cases i <;> cases h
  case ldAcc | ldAdr | ldA | ldB | ldIo => exact ⟨rfl, .inl ⟨_, rfl, rfl⟩⟩
  case stAcc | stAdr | stA | stB | stIo => exact ⟨rfl, .inr (.inl ⟨_, rfl, rfl, rfl⟩)⟩
  case addm => exact ⟨rfl, .inr (.inr (.inl rfl))⟩
  case subm => exact ⟨rfl, .inr (.inr (.inr rfl))⟩

namespace Machine

/-- A step at an IN with B a port (R110, R188, R216). -/
theorem step_inp {s : State} {x : Word} (hs : s.Idle) (hpc : s.pc.toNat < s.memCells)
    (hpc1 : (s.pc + 1).toNat < s.memCells) (hi : decodeCells (opcodeCell s) (operandCell s) = .ok (.inp x))
    (hb : s.b.toNat < s.nPorts) :
    step s = .next { (afterFetch s []).afterExecute x with
      io := s.presented s.b, inputs := s.inputs.tail, perReads := s.perReads + 1,
      history := s.history ++ [.portRead s.b.toNat (s.presented s.b)] } :=
  (step_eq_exec hs hpc hpc1 hi).trans (exec_inp (s := afterFetch s Entry.inp) hs.1 x hb)

/-- A step at an OUT with ADR a port (R110, R189, R217). -/
theorem step_out {s : State} {y : Word} (hs : s.Idle) (hpc : s.pc.toNat < s.memCells)
    (hpc1 : (s.pc + 1).toNat < s.memCells) (hi : decodeCells (opcodeCell s) (operandCell s) = .ok (.out y))
    (hadr : s.adr.toNat < s.nPorts) :
    step s = .next { (afterFetch s []).afterExecute y with
      io := s.acc, ports := s.ports.set s.adr.toNat s.acc,
      history := s.history ++ [.portWrite s.adr.toNat s.acc] } :=
  (step_eq_exec hs hpc hpc1 hi).trans (exec_out (s := afterFetch s Entry.out) hs.1 y hadr)

/-- The direct-address forms leave ADR at the operand, LD ADR at the cell's value; ADDM and SUBM leave B at the cell's
value (R118, R241, R242). -/
theorem exec_direct_selectors {i : Instr} {s t : State} {addr : Word} (hi : i.memoryAddress = some addr)
    (haddr : addr.toNat < s.memCells) (h : exec i s = .next t) :
    t.adr = (if i.loadReg = some Reg.adr then s.mem.read addr.toNat else addr) ∧
      ((∃ opd, i = .addm opd ∨ i = .subm opd) → t.b = s.mem.read addr.toNat) := by
  have hs := running_of_exec h
  obtain ⟨hopd, ⟨r, hload, hws⟩ | ⟨r, hload, hstore, hws⟩ | rfl | rfl⟩ := Instr.memoryAddress_cases hi
  · rw [exec_eq_execute, hws, hopd, execute_ld hs haddr] at h
    cases h
    refine ⟨by simp [hload], ?_⟩
    rintro ⟨opd, rfl | rfl⟩ <;> cases hload
  · rw [exec_eq_execute, hws, hopd, execute_st hs haddr] at h
    cases h
    refine ⟨by simp [hload], ?_⟩
    rintro ⟨opd, rfl | rfl⟩ <;> cases hstore
  · rw [exec_addm hs haddr] at h
    cases h
    exact ⟨rfl, fun _ => rfl⟩
  · rw [exec_subm hs haddr] at h
    cases h
    exact ⟨rfl, fun _ => rfl⟩

/-- Settles O39: the step at the IN keeps ADR, ACC and memory and moves PC to the OUT (`step_inp`, `step_out`); the exact
states of the direct-address forms name the values left in ADR and B (`exec_direct_selectors`). -/
theorem inSelectsByBAndOutByAdr : Obligations.InSelectsByBAndOutByAdr := by
  unfold Obligations.InSelectsByBAndOutByAdr
  refine ⟨?inThenOut, fun _ _ _ _ => exec_direct_selectors⟩
  case inThenOut =>
    intro s x y hs hpc hpc1 hpc2 hpc3 hin hout hb hadr
    rw [← show s.pc + 2 + 1 = s.pc + 3 from BitVec.add_assoc ..] at hpc3 hout
    exact ⟨_, _, step_inp hs hpc hpc1 hin hb, step_out ⟨hs.1, rfl⟩ hpc2 hpc3 hout hadr, List.append_assoc .., rfl, rfl⟩

end Machine

end Sys2Proof
end

section
/-! PROOFS. The fatal conditions inside a fetch (R201, R202): the ticks up to the two memory reads at PC and PC + 1,
which are fetch ticks 3 and 5. -/

namespace Sys2Proof.Machine

section
variable {rom : Ucode} {s : State} (hs : s.Idle)
include hs

/-- Fetch ticks 1 and 2 save ADR and put PC in it, whatever is at PC (R109). -/
theorem fetch_reaches_opcodeRead : Reaches rom 2 s
    { s with adb := s.adr, adr := s.pc, bus := 0, q := Fetch.sequence.drop 2 } := by
  obtain ⟨hrun, hq⟩ := hs
  have h1 : Reaches rom 1 s { s with adb := s.adr, bus := 0, q := Fetch.sequence.drop 1 } :=
    .of_copy hrun (by rw [hq]; rfl)
  exact h1.trans hrun (.of_copy h1.2 rfl)

/-- Fetch ticks 3 and 4 take an opcode of the ROM from PC and put PC + 1 in ADR, whatever is at PC + 1 (R109). -/
theorem fetch_reaches_operandRead {ws : List ControlWord} (hpc : s.pc.toNat < s.memCells)
    (he : Ucode.entry (opcodeCell s) rom = some ws) : Reaches rom 4 s
      { s with ir := opcodeCell s, pc := s.pc + 1, adb := s.adr, adr := s.pc + 1, bus := 0,
               q := Fetch.sequence.drop 4 ++ ws } := by
  have h2 := fetch_reaches_opcodeRead (rom := rom) hs
  have h3 : Reaches rom 1 _ { s with ir := opcodeCell s, pc := s.pc + 1, adb := s.adr, adr := s.pc, bus := 0,
                                     q := Fetch.sequence.drop 3 ++ ws } :=
    .of_commit h2.2 rfl rfl (assertWord_fetch3 rom _ ws _ hpc he) hs.1
  exact (h2.trans hs.1 h3).trans hs.1 (.of_copy h3.2 rfl)

/-- Fetch tick 3 on a cell that exists and is no opcode of the ROM (R201, R205). -/
theorem fetch_raises_invalidOpcode (hpc : s.pc.toNat < s.memCells) (he : Ucode.entry (opcodeCell s) rom = none) :
    runTicks rom Config.fetchLen s = .next
      ({ s with adb := s.adr, adr := s.pc }.takeFatal
        (.invalidOpcode s.pc (opcodeCell s)) (Fetch.sequence.drop 3)) := by
  have h2 := fetch_reaches_opcodeRead (rom := rom) hs
  exact (h2.runTicks_add hs.1 4).trans (runTicks_raise h2.2 rfl rfl (assertWord_fetch3_raises rom _ _ hpc he))

/-- Fetch tick 3 with PC outside memory (R202, R205). -/
theorem fetch_raises_at_opcodeRead (hpc : s.memCells ≤ s.pc.toNat) :
    runTicks rom Config.fetchLen s = .next
      ({ s with adb := s.adr, adr := s.pc }.takeFatal (.addressError s.pc) (Fetch.sequence.drop 3)) := by
  have h2 := fetch_reaches_opcodeRead (rom := rom) hs
  exact (h2.runTicks_add hs.1 4).trans (runTicks_raise h2.2 rfl rfl (assertWord_load_raises rom _ _ _ rfl hpc))

/-- Fetch tick 5 with PC + 1 outside memory (R202, R205). -/
theorem fetch_raises_at_operandRead {ws : List ControlWord} (hpc : s.pc.toNat < s.memCells)
    (hpc1 : s.memCells ≤ (s.pc + 1).toNat) (he : Ucode.entry (opcodeCell s) rom = some ws) :
    runTicks rom Config.fetchLen s = .next
      ({ s with ir := opcodeCell s, pc := s.pc + 1, adb := s.adr, adr := s.pc + 1 }.takeFatal
        (.addressError (s.pc + 1)) (Fetch.sequence.drop 5 ++ ws)) := by
  have h4 := fetch_reaches_operandRead hs hpc he
  exact (h4.runTicks_add hs.1 2).trans (runTicks_raise h4.2 rfl rfl (assertWord_load_raises rom _ _ _ rfl hpc1))

end

end Sys2Proof.Machine
end

section
/-! PROOFS. InvalidOpcode (R201). The reference ROM's keys are the 46 opcodes; only the decode point raises
InvalidOpcode, and no execute word has DEC. -/

namespace Sys2Proof

/-- An opcode has no entry exactly when it is no key of the ROM (R112). -/
theorem Ucode.entry_eq_none {op : Word} {rom : Ucode} : Ucode.entry op rom = none ↔ op ∉ rom.map Prod.fst := by
  induction rom with
  | nil => simp [Ucode.entry]
  | cons row rom ih =>
    rw [Ucode.entry]
    split
    next h => simp [h]
    next h => simp [ih, Ne.symm h]

namespace Machine

/-- Every key of the reference ROM is a value of the formula of its rows (R76, R77, R78, R118). -/
theorem isOpcode_of_mem_reference {op : Word} (h : op ∈ Ucode.reference.map Prod.fst) : IsOpcode op := by
  have hother : ∀ row ∈ Ucode.systemRows ++ Ucode.otherRows, row.1.toNat ∈
      [0x0000, 0x0001, 0x0500, 0x0501, 0x0502, 0x0503, 0x0600, 0x0601, 0x0602, 0x0700, 0x0701] := by decide
  have hmove : ∀ row ∈ Ucode.moveRows, ∃ d ∈ registerCodes, ∃ s ∈ registerCodes,
      d ≠ s ∧ row.1.toNat = 0x0100 + 16 * d + s := by decide
  have hmemory : ∀ row ∈ Ucode.loadRows ++ Ucode.immediateRows ++ Ucode.storeRows, ∃ r ∈ registerCodes,
      row.1.toNat = 0x0200 + r ∨ row.1.toNat = 0x0300 + r ∨ row.1.toNat = 0x0400 + r := by decide
  obtain ⟨row, hrow, rfl⟩ := List.mem_map.1 h
  simp only [Ucode.reference, List.mem_append] at hrow hother hmemory
  rcases hrow with ((((hrow | hrow) | hrow) | hrow) | hrow) | hrow
  · exact .inl (hother row (.inl hrow))
  · exact .inr (.inl (hmove row hrow))
  · exact .inr (.inr (hmemory row (.inl (.inl hrow))))
  · exact .inr (.inr (hmemory row (.inl (.inr hrow))))
  · exact .inr (.inr (hmemory row (.inr hrow)))
  · exact .inl (hother row (.inr hrow))

/-- Every value of the formulas of R76, R77 and R78 is a key of the reference ROM (R118). -/
theorem mem_reference_of_isOpcode {op : Word} (h : IsOpcode op) : op ∈ Ucode.reference.map Prod.fst := by
  have hop {n : Nat} (hn : op.toNat = n) : op = BitVec.ofNat 16 n := by
    rw [← hn, BitVec.ofNat_toNat, BitVec.setWidth_eq]
  have hother : ∀ n ∈ [0x0000, 0x0001, 0x0500, 0x0501, 0x0502, 0x0503, 0x0600, 0x0601, 0x0602, 0x0700, 0x0701],
      BitVec.ofNat 16 n ∈ Ucode.reference.map Prod.fst := by decide
  have hmove : ∀ d ∈ registerCodes, ∀ s ∈ registerCodes, d ≠ s →
      BitVec.ofNat 16 (0x0100 + 16 * d + s) ∈ Ucode.reference.map Prod.fst := by decide
  have hmemory : ∀ r ∈ registerCodes, ∀ base ∈ [0x0200, 0x0300, 0x0400],
      BitVec.ofNat 16 (base + r) ∈ Ucode.reference.map Prod.fst := by decide
  rcases h with h | ⟨d, hd, s, hs, hne, h⟩ | ⟨r, hr, h | h | h⟩
  · rw [hop rfl]; exact hother _ h
  · rw [hop h]; exact hmove d hd s hs hne
  all_goals rw [hop h]; exact hmemory r hr _ (by decide)

/-- The reference ROM maps the 46 opcodes and no other value (R79, R118). -/
theorem reference_entry_eq_none {op : Word} : Ucode.entry op Ucode.reference = none ↔ ¬ IsOpcode op :=
  Ucode.entry_eq_none.trans (not_congr ⟨isOpcode_of_mem_reference, mem_reference_of_isOpcode⟩)

/-- What the drive phase can raise (R202, R203). -/
theorem driveBus_error {w : ControlWord} {s : State} {c : FatalCondition} (h : driveBus w s = .error c) :
    c = .addressError s.adr ∨ c = .portError s.b := by
  unfold driveBus at h
  split at h
  next => exact .inl (State.memRead_error.1 h).2
  next =>
    split at h
    next => exact .inr (State.perRead_error.1 h).2
    next => cases h

/-- What the memory write can raise (R202). -/
theorem writeMemory_error {w : ControlWord} {bus : Word} {s : State} {c : FatalCondition}
    (h : writeMemory w bus s = .error c) : c = .addressError s.adr := by
  unfold writeMemory at h
  split at h
  next => exact (State.memWrite_error.1 h).2
  next => cases h

/-- What the port write can raise (R203). -/
theorem writePort_error {w : ControlWord} {bus : Word} {s : State} {c : FatalCondition}
    (h : writePort w bus s = .error c) : c = .portError s.adr := by
  unfold writePort at h
  split at h
  next => exact (State.perWrite_error.1 h).2
  next => cases h

/-- A word without DEC raises AddressError or PortError, never InvalidOpcode (R201 to R203). -/
theorem assertWord_noDec_error {rom : Ucode} {w : ControlWord} {q : List ControlWord} {s : State} {c : FatalCondition}
    (hd : w.has .dec = false) (h : assertWord rom w q s = .error c) :
    c = .addressError s.adr ∨ c = .portError s.b ∨ c = .portError s.adr := by
  unfold assertWord at h
  split at h
  next hbus => cases h; exact (driveBus_error hbus).imp_right .inl
  next bus _ =>
    split at h
    next hmem => cases h; exact .inl (writeMemory_error hmem)
    next =>
      split at h
      next hports => cases h; exact .inr (.inr (writePort_error hports))
      next => rw [decodePoint_no_dec hd] at h; cases h

/-- A tick of a word without DEC records no InvalidOpcode (R201). -/
theorem tickWith_noDec_fault {rom : Ucode} {w : ControlWord} {q : List ControlWord} {s t : State} (hq : s.q = w :: q)
    (hd : w.has .dec = false) (h : tickWith rom s = .next t) (addr op : Word) :
    t.fault ≠ some (.invalidOpcode addr op) := by
  obtain ⟨hs, -, ⟨c, hraise, rfl⟩ | hcommit⟩ := tickWith_next h
  · rw [hq, popped_cons] at hraise
    rcases assertWord_noDec_error hd hraise with rfl | rfl | rfl <;> simp
  · simp [(assertWord_halted hs hcommit).2]

/-- The ticks of a queue without DEC record no InvalidOpcode (R201). -/
theorem runTicks_noDec_fault {rom : Ucode} {q : List ControlWord} {s t : State} (hs : s.Running) (hq : s.q = q)
    (hd : Entry.noDec q = true) (h : runTicks rom q.length s = .next t) (addr op : Word) :
    t.fault ≠ some (.invalidOpcode addr op) := by
  induction q generalizing s with
  | nil =>
    cases h
    simp [hs.2]
  | cons w q ih =>
    obtain ⟨hwd, hqd⟩ : w.has .dec = false ∧ Entry.noDec q = true := by simpa [Entry.noDec] using hd
    obtain ⟨u, hu, ⟨-, rfl⟩ | ⟨hrun, hrest⟩⟩ := runTicks_succ_next h
    · exact tickWith_noDec_fault hq hwd hu addr op
    · exact ih hrun (tickWith_queue hq hwd hu) hqd hrest

/-- No meaning records InvalidOpcode (R113 a, R201). -/
theorem exec_not_invalidOpcode {i : Instr} {s t : State} (h : exec i s = .next t) (addr op : Word) :
    t.fault ≠ some (.invalidOpcode addr op) := by
  have hs := running_of_exec h
  rw [exec_eq_execute, execute_running hs] at h
  exact runTicks_noDec_fault (s := { s with ir := i.operand, q := i.microcode }) hs rfl (microcode_noDec i) h addr op

/-- Settles O17: two fetch ticks reach the read at PC, where the third raises (`fetch_raises_invalidOpcode`); a word
without DEC cannot raise InvalidOpcode (`assertWord_noDec_error`), and no execute word has DEC. -/
theorem invalidOpcodeIsRaisedAtTheDecodePoint : Obligations.InvalidOpcodeIsRaisedAtTheDecodePoint := by
  unfold Obligations.InvalidOpcodeIsRaisedAtTheDecodePoint
  exact ⟨fun _ _ => fetch_raises_invalidOpcode, fun _ => reference_entry_eq_none,
    fun _ _ _ addr op _ h => exec_not_invalidOpcode h addr op, fun _ _ => rfl⟩

end Machine

end Sys2Proof
end

section
/-! PROOFS. AddressError (R202). The second word of every direct-address form reads or writes the cell at ADR, which
holds the operand by then (R118). -/

namespace Sys2Proof

/-- The microcode of a direct-address form: the operand to ADR, then a word that accesses memory there (R118). -/
theorem Instr.memoryAddress_microcode {i : Instr} {addr : Word} (h : i.memoryAddress = some addr) :
    ∃ w : ControlWord, i.microcode = [.drv .ir, .lat .adr] :: w :: i.microcode.drop 2 ∧ w.wf = true ∧
      (w.has .memDrv = true ∨ w.has .memLat = true ∧ ∃ r, w.has (.drv r) = true) := by
  obtain ⟨-, ⟨r, -, hws⟩ | ⟨r, -, -, hws⟩ | rfl | rfl⟩ := Instr.memoryAddress_cases h
  · exact ⟨[.memDrv, .lat r], by rw [hws]; rfl, ControlWord.wf_load r, .inl rfl⟩
  · exact ⟨[.drv r, .memLat], by rw [hws]; rfl, ControlWord.wf_store r, .inr ⟨by simp, r, by simp⟩⟩
  · exact ⟨[.memDrv, .lat .b], rfl, rfl, .inl rfl⟩
  · exact ⟨[.memDrv, .lat .b], rfl, rfl, .inl rfl⟩

namespace Machine

/-- A tick that accesses memory with ADR out of range raises AddressError (R202). -/
theorem assertWord_access_raises {rom : Ucode} {w : ControlWord} {q : List ControlWord} {s : State}
    (hadr : s.memCells ≤ s.adr.toNat)
    (haccess : w.has .memDrv = true ∨ (w.has .memLat = true ∧ ∃ bus, driveBus w s = .ok bus)) :
    assertWord rom w q s = .error (.addressError s.adr) := by
  rcases haccess with hw | ⟨hw, bus, hbus⟩
  · exact assertWord_load_raises rom w q s hw hadr
  · exact assertWord_memLat_raises hw hbus hadr

/-- A direct-address form with its operand out of range raises at its second execute tick, with ADR at the operand
(R202, R205). -/
theorem exec_direct_raises {i : Instr} {s : State} {addr : Word} (hs : s.Running) (hi : i.memoryAddress = some addr)
    (haddr : s.memCells ≤ addr.toNat) :
    exec i s =
      .next ({ s with ir := i.operand, adr := addr }.takeFatal (.addressError addr) (i.microcode.drop 2)) := by
  obtain ⟨w, hws, hwf, haccess⟩ := Instr.memoryAddress_microcode hi
  rw [exec_eq_execute, hws, (Instr.memoryAddress_cases hi).1, execute_direct hs]
  exact runTicks_raise hs rfl hwf (assertWord_access_raises haddr
    (haccess.imp_right fun ⟨hlat, _, hdrv⟩ => ⟨hlat, _, driveBus_drv hwf hdrv⟩))

/-- Settles O18: any access out of range raises (`assertWord_access_raises`), at the two reads of the fetch
(`fetch_raises_at_opcodeRead`, `fetch_raises_at_operandRead`) and in the direct-address forms (`exec_direct_raises`). -/
theorem addressErrorIsRaisedByEveryAccess : Obligations.AddressErrorIsRaisedByEveryAccess := by
  unfold Obligations.AddressErrorIsRaisedByEveryAccess
  exact ⟨fun _ _ _ _ _ => assertWord_access_raises, fun _ _ => fetch_raises_at_opcodeRead,
    fun _ _ _ hs => fetch_raises_at_operandRead hs, fun _ _ _ => exec_direct_raises, fun _ => rfl⟩

end Machine

end Sys2Proof
end

section
/-! PROOFS. PortError (R203): PER_DRV queries the port B names in the drive phase, PER_LAT writes the port ADR names in
the write phase. -/

namespace Sys2Proof.Machine

/-- A query of no peripheral raises PortError, in any well-formed word (R203). -/
theorem assertWord_perDrv_raises {rom : Ucode} {w : ControlWord} {q : List ControlWord} {s : State} (hwf : w.wf = true)
    (hw : w.has .perDrv = true) (hb : s.nPorts ≤ s.b.toNat) : assertWord rom w q s = .error (.portError s.b) :=
  assertWord_drive_error (by rw [driveBus_perDrv hwf hw, State.perRead_error.2 ⟨hb, rfl⟩])

section
variable {s : State} (hs : s.Running)
include hs

/-- IN with B no port raises at its only execute tick (R188, R203, R205). -/
theorem exec_inp_raises (opd : Word) (hb : s.nPorts ≤ s.b.toNat) :
    exec (.inp opd) s = .next ({ s with ir := opd }.takeFatal (.portError s.b) []) :=
  (execute_running hs).trans (runTicks_raise hs rfl rfl (assertWord_in_raises _ _ _ hb))

/-- OUT with ADR no port raises at its second execute tick, with ACC in IO by then (R189, R203, R205). -/
theorem exec_out_raises (opd : Word) (hadr : s.nPorts ≤ s.adr.toNat) :
    exec (.out opd) s = .next ({ s with ir := opd, io := s.acc }.takeFatal (.portError s.adr) []) :=
  calc exec (.out opd) s
    _ = runTicks _ 2 { s with ir := opd, q := Entry.out } := execute_running hs
    _ = runTicks _ 1 { s.afterExecute opd with io := s.acc, q := Entry.out.drop 1 } :=
      runTicks_ok hs rfl rfl (assertWord_copy ..) hs
    _ = _ := runTicks_raise hs rfl rfl (assertWord_out_raises _ _ _ hadr)

end

/-- Settles O19: the two port signals raise in any word (`assertWord_perDrv_raises`, `assertWord_perLat_raises`), so IN
and OUT do in theirs (`exec_inp_raises`, `exec_out_raises`). -/
theorem portErrorIsRaisedByInAndOut : Obligations.PortErrorIsRaisedByInAndOut := by
  unfold Obligations.PortErrorIsRaisedByInAndOut
  refine ⟨fun rom w q s hwf => ⟨assertWord_perDrv_raises hwf, ?portWrite⟩, fun _ opd hs => exec_inp_raises hs opd,
    fun _ opd hs => exec_out_raises hs opd, fun _ => rfl⟩
  case portWrite =>
    rintro hw hport hmem ⟨bus, hbus⟩
    exact assertWord_perLat_raises hw hbus hmem hport

end Sys2Proof.Machine
end

section
/-! PROOFS. The encoding (R70 to R79): what the decoder reads, and which opcodes it rejects. -/

namespace Sys2Proof

/-- Bytes that decode begin with the encoding of the instruction they decode to (R70, R83). -/
theorem encodeBytes_of_decodeBytes {bs rest : List Byte} {i : Instr} (h : decodeBytes bs = .ok (i, rest)) :
    bs = encodeBytes i ++ rest := by
  unfold decodeBytes at h
  split at h
  next b0 b1 b2 b3 tail =>
    split at h
    next j hj =>
      cases h
      obtain ⟨hop, hopd⟩ := decodeCells_ok.1 hj
      rw [encodeBytes, ← hop, ← hopd, bytesOfCell_cellOfBytes, bytesOfCell_cellOfBytes]
      rfl
    next => cases h
  next => cases h

/-- The 32-bit view as a number (R71). -/
theorem encode_toNat (i : Instr) : (encode i).toNat = i.operand.toNat * 2 ^ 16 + i.opcode.toNat := by
  rw [encode, BitVec.toNat_append, ← Nat.shiftLeft_add_eq_or_of_lt i.opcode.isLt, Nat.shiftLeft_eq]

/-- The low half of the 32-bit view is the opcode cell (R71). -/
theorem tableOpcode_encode (i : Instr) : tableOpcode 32 (encode i).toNat = i.opcode := by
  have hop := i.opcode.isLt
  apply BitVec.eq_of_toNat_eq
  rw [tableOpcode, encode_toNat, BitVec.toNat_ofNat]
  omega

/-- The high half of the 32-bit view is the operand cell (R71). -/
theorem tableOperand_encode (i : Instr) : tableOperand 32 (encode i).toNat = i.operand := by
  have hop := i.opcode.isLt
  have hopd := i.operand.isLt
  apply BitVec.eq_of_toNat_eq
  rw [tableOperand, encode_toNat, BitVec.toNat_ofNat]
  omega

/-- Settles O2: bytes that decode begin with the encoding (`encodeBytes_of_decodeBytes`), an encoding is read back
(`Laws.RoundTrip.bytes`), and so are the two cells of the 32-bit view. -/
theorem decodeAndEncodeAgree : Obligations.DecodeAndEncodeAgree := by
  unfold Obligations.DecodeAndEncodeAgree
  refine ⟨fun bs i rest => ⟨encodeBytes_of_decodeBytes, ?_⟩, fun i => ?_⟩
  · rintro rfl
    exact Laws.RoundTrip.bytes i rest
  · have hbytes := Laws.RoundTrip.bytes i []
    rw [List.append_nil, encodeBytes] at hbytes
    rw [decodeTableWord, tableOpcode_encode, tableOperand_encode, hbytes]

/-- The decoder finds no row exactly when the opcode is none of the map's (R73). -/
theorem lookupOpcode_eq_none {op : Word} {rows : List OpcodeRow} :
    lookupOpcode op rows = none ↔ op ∉ rows.map Prod.fst := by
  induction rows with
  | nil => simp [lookupOpcode]
  | cons row rows ih =>
    rw [lookupOpcode_cons]
    split
    next h => simp [h]
    next h => simp [ih, Ne.symm h]

/-- The decoder rejects an opcode exactly when the map has no row for it (R79). -/
theorem decodeCells_error {op opd : Word} :
    decodeCells op opd = .error (.invalidOpcode op) ↔ lookupOpcode op opcodeTable = none := by
  unfold decodeCells
  cases lookupOpcode op opcodeTable <;> simp

/-- The opcode map and the reference ROM have the same opcodes (R75, R118). -/
theorem opcodeTable_keys : opcodeTable.map Prod.fst = Ucode.reference.map Prod.fst := rfl

/-- The decoder rejects what the reference ROM does not map (R79, R118). -/
theorem decodeCells_error_iff_entry {op opd : Word} :
    decodeCells op opd = .error (.invalidOpcode op) ↔ Ucode.entry op Ucode.reference = none := by
  rw [decodeCells_error, lookupOpcode_eq_none, opcodeTable_keys, Ucode.entry_eq_none]

/-- Settles O3: the decoder rejects what the ROM does not map (`decodeCells_error_iff_entry`), which is what the
formulas do not give (`reference_entry_eq_none`). -/
theorem opcodesOutsideTheMapAreIllegal : Obligations.OpcodesOutsideTheMapAreIllegal := by
  unfold Obligations.OpcodesOutsideTheMapAreIllegal
  exact fun op opd => ⟨decodeCells_error_iff_entry.trans Machine.reference_entry_eq_none,
    Machine.reference_entry_eq_none⟩

/-- Settles O1, by evaluating the decoder on each word. -/
theorem decodeReadsWrittenOutWords : Obligations.DecodeReadsWrittenOutWords := by
  unfold Obligations.DecodeReadsWrittenOutWords
  decide

/-- Settles O4, by evaluating the checks on the ROM's rows and the six fetch words. -/
theorem referenceRomIsWellFormed : Obligations.ReferenceRomIsWellFormed := by
  unfold Obligations.ReferenceRomIsWellFormed
  decide

end Sys2Proof
end

section
/-! PROOFS. One tick of any word: what its registers take (R97 to R99), which condition it raises (R208) and what a
raise leaves (R108, R205). -/

namespace Sys2Proof.Machine

/-- PC after a committed tick that does not latch it (R99). -/
theorem latchedPc_of_not_lat {w : ControlWord} (h : w.has (.lat .pc) = false) (bus : Word) (s : State) :
    latchedPc w bus s = if w.has .pci = true then s.pc + 1 else s.pc := by
  simp [latchedPc, latched, h]

/-- A register not latched keeps its value, but for the increment of PC (R98, R99). -/
theorem assertWord_not_latched {rom : Ucode} {w : ControlWord} {q : List ControlWord} {s t : State} {r : Reg}
    (hr : w.has (.lat r) = false) (h : assertWord rom w q s = .ok t) :
    t.reg r = if r = .pc ∧ w.has .pci = true then s.pc + 1 else s.reg r := by
  obtain ⟨bus, mem, ports, q', -, -, -, -, rfl⟩ := assertWord_ok.1 h
  rw [reg_committed]
  by_cases hpc : r = .pc
  · subst hpc
    simp [latchedPc_of_not_lat hr]
  · simp [hpc, latched, hr]

/-- The drive phase of a committed tick answered (R208). -/
theorem driveBus_of_commit {rom : Ucode} {w : ControlWord} {q : List ControlWord} {s t : State}
    (h : assertWord rom w q s = .ok t) : ∃ bus, driveBus w s = .ok bus := by
  obtain ⟨bus, -, -, -, hbus, -⟩ := assertWord_ok.1 h
  exact ⟨bus, hbus⟩

/-- Settles O6: every latched register takes the Bus value (`assertWord_latched`), which is the driver's start value;
the others keep theirs (`assertWord_not_latched`). -/
theorem latchesTakeTheDriversStartValue : Obligations.LatchesTakeTheDriversStartValue := by
  unfold Obligations.LatchesTakeTheDriversStartValue
  intro rom w q s t r hw h
  obtain ⟨bus, hbus⟩ := driveBus_of_commit h
  refine ⟨fun hr => ?_, fun hr => assertWord_not_latched hr h⟩
  rw [assertWord_latched hw hbus hr h]
  refine ⟨fun d hd => ?register, fun halu => ?alu, fun hmem => ?memory, fun hper => ?peripheral,
    fun hnone hrest => ?none⟩
  case register =>
    rw [driveBus_drv hw hd] at hbus
    exact (Except.ok.inj hbus).symm
  case alu =>
    rw [driveBus_aluEn hw halu] at hbus
    exact (Except.ok.inj hbus).symm
  case memory =>
    rw [driveBus_memDrv hmem] at hbus
    exact (State.memRead_ok.1 hbus).2
  case peripheral =>
    rw [driveBus_perDrv hw hper] at hbus
    exact (State.perRead_ok.1 hbus).2
  case none =>
    rw [driveBus_none hnone, hrest] at hbus
    exact (Except.ok.inj hbus).symm

/-! ## Raises -/

/-- The condition a tick of a word raises, if any. -/
def raised (rom : Ucode) (w : ControlWord) (q : List ControlWord) (s : State) : Option FatalCondition :=
  match assertWord rom w q s with
  | .ok _ => none
  | .error c => some c

theorem raised_of_error {rom : Ucode} {w : ControlWord} {q : List ControlWord} {s : State} {c : FatalCondition}
    (h : assertWord rom w q s = .error c) : raised rom w q s = some c := by
  rw [raised, h]

theorem raised_of_commit {rom : Ucode} {w : ControlWord} {q : List ControlWord} {s : State}
    (h : ∃ t, assertWord rom w q s = .ok t) : raised rom w q s = none := by
  obtain ⟨t, h⟩ := h
  rw [raised, h]

/-- The fault record after a tick is the condition its word raised (R205). -/
theorem tickWith_fault {rom : Ucode} {w : ControlWord} {q : List ControlWord} {s t : State} (hq : s.q = w :: q)
    (h : tickWith rom s = .next t) : t.fault = raised rom w q s := by
  obtain ⟨hs, -, ⟨c, hraise, rfl⟩ | hcommit⟩ := tickWith_next h
  · rw [hq, popped_cons] at hraise
    exact (raised_of_error hraise).symm
  · rw [hq, popped_cons] at hcommit
    rw [raised_of_commit ⟨t, hcommit⟩, (assertWord_halted hs hcommit).2]

/-- The drive phase answers unless it reads a cell or queries a port that is not there (R202, R203). -/
theorem driveBus_answers {w : ControlWord} {s : State} (hw : w.wf = true)
    (hmem : ¬ (w.has .memDrv = true ∧ s.memCells ≤ s.adr.toNat))
    (hper : ¬ (w.has .perDrv = true ∧ s.nPorts ≤ s.b.toNat)) : ∃ bus, driveBus w s = .ok bus := by
  by_cases hm : w.has .memDrv = true
  · exact ⟨_, by rw [driveBus_memDrv hm, State.memRead_ok.2 ⟨Nat.lt_of_not_le fun h => hmem ⟨hm, h⟩, rfl⟩]⟩
  · by_cases hp : w.has .perDrv = true
    · exact ⟨_, by rw [driveBus_perDrv hw hp, State.perRead_ok.2 ⟨Nat.lt_of_not_le fun h => hper ⟨hp, h⟩, rfl⟩]⟩
    · exact ⟨_, by rw [driveBus, if_neg hm, if_neg hp]⟩

/-- With every access in range only the decode point can raise (R105, R208). -/
theorem raised_at_decode {rom : Ucode} {w : ControlWord} {q : List ControlWord} {s : State} {bus : Word}
    (hw : w.wf = true) (hbus : driveBus w s = .ok bus) (hmem : w.has .memLat = true → s.adr.toNat < s.memCells)
    (hports : w.has .perLat = true → s.adr.toNat < s.nPorts) :
    raised rom w q s =
      if w.has .dec = true ∧ Ucode.entry bus rom = none then some (.invalidOpcode s.adr bus) else none := by
  cases hdec : w.has .dec with
  | false => simpa using raised_of_commit (assertWord_noDec_commits hbus hmem hports hdec rom q)
  | true =>
    cases he : Ucode.entry bus rom with
    | none => simpa using raised_of_error (assertWord_dec_raises hw hdec hmem hports hbus he)
    | some ws =>
      obtain ⟨t, ht, -⟩ := assertWord_dec_commits (q := q) hw hdec hmem hports hbus he
      simpa using raised_of_commit ⟨t, ht⟩

/-- Settles O12: the four accesses raise in the order of their phases, and behind them only the decode point can
(`raised_at_decode`). -/
theorem fatalConditionsFollowThePhases : Obligations.FatalConditionsFollowThePhases := by
  unfold Obligations.FatalConditionsFollowThePhases
  intro rom w q s t _ hq hw h
  have inRange {b : Bool} {m n : Nat} (h : ¬ (b = true ∧ m ≤ n)) : b = true → n < m :=
    fun hb => Nat.lt_of_not_le fun hle => h ⟨hb, hle⟩
  rw [tickWith_fault hq h]
  split_ifs with hread hquery hstore hport
  · exact raised_of_error (assertWord_load_raises rom w q s hread.1 hread.2)
  · exact raised_of_error (assertWord_perDrv_raises hw hquery.1 hquery.2)
  · obtain ⟨bus, hbus⟩ := driveBus_answers hw hread hquery
    exact raised_of_error (assertWord_memLat_raises hstore.1 hbus hstore.2)
  · obtain ⟨bus, hbus⟩ := driveBus_answers hw hread hquery
    exact raised_of_error (assertWord_perLat_raises hport.1 hbus (inRange hstore) hport.2)
  · obtain ⟨bus, hbus⟩ := driveBus_answers hw hread hquery
    simp only [hbus]
    exact raised_at_decode hw hbus (inRange hstore) (inRange hport)

/-- Settles O13: a tick that sets the record did not commit, so its state is `State.takeFatal`. -/
theorem raisingTickCommitsNothing : Obligations.RaisingTickCommitsNothing := by
  unfold Obligations.RaisingTickCommitsNothing
  intro rom w q s t c hs hq h hc
  obtain ⟨-, -, ⟨c', -, rfl⟩ | hcommit⟩ := tickWith_next h
  · rw [State.takeFatal_fault, Option.some.injEq] at hc
    rw [hc, hq]
    rfl
  · rw [(assertWord_halted hs hcommit).2] at hc
    cases hc

/-! ## Stopped machines -/

/-- Why a machine that does not run is stopped (R222, R223). -/
theorem State.stopReason_of_not_running {s : State} (h : ¬ s.Running) :
    ∃ r, (r = .halted ∧ s.halted = true ∨ ∃ c, r = .faulted c ∧ s.fault = some c ∧ s.halted = false) ∧
      s.stopReason = some r := by
  cases hhalt : s.halted with
  | true => exact ⟨.halted, .inl ⟨rfl, rfl⟩, by simp [State.stopReason, hhalt]⟩
  | false =>
    cases hfault : s.fault with
    | none => exact absurd ⟨hhalt, hfault⟩ h
    | some c => exact ⟨.faulted c, .inr ⟨c, rfl, rfl, rfl⟩, by simp [State.stopReason, hhalt, hfault]⟩

/-- A stopped machine has no meaning to run (R222, U18). -/
theorem exec_stopped {i : Instr} {s : State} {r : Fault} (h : s.stopReason = some r) : exec i s = .fault r := by
  rw [exec_eq_execute, execute_stopped h]

/-- A stopped machine has no step (R222, U18). -/
theorem step_stopped {s : State} {r : Fault} (h : s.stopReason = some r) : step s = .fault r := by
  simp only [step, h]

/-- Settles O14: the tick, the meaning and the step all answer the reason the machine is stopped. -/
theorem stoppedMachineNeverSteps : Obligations.StoppedMachineNeverSteps := by
  unfold Obligations.StoppedMachineNeverSteps
  intro rom i s hs
  obtain ⟨r, hr, hstop⟩ := State.stopReason_of_not_running hs
  exact ⟨r, hr, tickWith_stopped hstop, exec_stopped hstop, step_stopped hstop⟩

/-- Settles O15: teardown of a running machine takes its second branch, and a halted machine has no step. -/
theorem teardownIsTheHaltPath : Obligations.TeardownIsTheHaltPath := by
  unfold Obligations.TeardownIsTheHaltPath
  intro s hs
  have hdown : s.teardown = { s with halted := true, history := s.history ++ [.disconnect] } := by
    simp [State.teardown, State.stopped_eq_false.2 hs]
  exact ⟨hdown, step_stopped (by rw [hdown]; rfl)⟩

end Sys2Proof.Machine
end

section
/-! PROOFS. A step from a boundary: the four ways its fetch can go (R110, R201, R202), and that it is the ticks up to
the next boundary (R94, R116). -/

namespace Sys2Proof.Machine

/-- Settles O16: the six fetch ticks, committed one by one (`fetch_reaches_afterFetch`). -/
theorem fetchSequenceNetEffect : Obligations.FetchSequenceNetEffect := by
  unfold Obligations.FetchSequenceNetEffect
  exact fun rom s ws hs hpc hpc1 he => (fetch_reaches_afterFetch hs hpc hpc1 he).1

/-- Settles O20: the fetch leaves the state the meaning starts from (`step_eq_exec`). -/
theorem stepRunsTheDecodedInstruction : Obligations.StepRunsTheDecodedInstruction := by
  unfold Obligations.StepRunsTheDecodedInstruction
  exact fun s i => step_eq_exec

/-- An opcode with an entry in the reference ROM decodes, to an instruction with that entry (R79, R118). -/
theorem decodes_of_entry {op opd : Word} {ws : List ControlWord} (he : Ucode.entry op Ucode.reference = some ws) :
    ∃ i, decodeCells op opd = .ok i ∧ i.microcode = ws := by
  cases hi : decodeCells op opd with
  | ok i =>
    refine ⟨i, rfl, ?_⟩
    rw [(decodeCells_ok.1 hi).1, entry_microcode] at he
    exact Option.some.inj he
  | error e =>
    have hop : decodeCells op opd = .error (.invalidOpcode op) := by
      unfold decodeCells at hi ⊢
      split at hi
      next => cases hi
      next => rfl
    rw [decodeCells_error_iff_entry.1 hop] at he
    cases he

/-- The four ways a fetch can go: no cell at PC, no opcode there, no cell behind it, or an instruction (R110, R201,
R202). -/
theorem fetch_cases (s : State) :
    s.memCells ≤ s.pc.toNat ∨
    (s.pc.toNat < s.memCells ∧ Ucode.entry (opcodeCell s) Ucode.reference = none) ∨
    (s.pc.toNat < s.memCells ∧ s.memCells ≤ (s.pc + 1).toNat ∧
      ∃ ws, Ucode.entry (opcodeCell s) Ucode.reference = some ws) ∨
    (s.pc.toNat < s.memCells ∧ (s.pc + 1).toNat < s.memCells ∧
      ∃ i, decodeCells (opcodeCell s) (operandCell s) = .ok i) := by
  rcases Nat.lt_or_ge s.pc.toNat s.memCells with hpc | hpc
  · right
    cases he : Ucode.entry (opcodeCell s) Ucode.reference with
    | none => exact .inl ⟨hpc, rfl⟩
    | some ws =>
      right
      rcases Nat.lt_or_ge (s.pc + 1).toNat s.memCells with hpc1 | hpc1
      · obtain ⟨i, hi, -⟩ := decodes_of_entry (opd := operandCell s) he
        exact .inr ⟨hpc, hpc1, i, hi⟩
      · exact .inl ⟨hpc, hpc1, ws, rfl⟩
  · exact .inl hpc

section
variable {s : State} (hs : s.Idle)
include hs

/-- A step whose fetch stops the machine is that fetch (R116). -/
theorem step_of_fetch_stops {t : State} (h : runTicks Ucode.reference Config.fetchLen s = .next t)
    (ht : t.stopped = true) : step s = .next t := by
  simp only [step, hs.1.stopReason, hs.2, fetchInstruction, h, ht, if_true]

/-- A step with PC outside memory (R202). -/
theorem step_raises_at_opcodeRead (hpc : s.memCells ≤ s.pc.toNat) :
    step s = .next ({ s with adb := s.adr, adr := s.pc }.takeFatal (.addressError s.pc) (Fetch.sequence.drop 3)) :=
  step_of_fetch_stops hs (fetch_raises_at_opcodeRead hs hpc) (State.takeFatal_stopped ..)

/-- A step at a cell that is no opcode (R201). -/
theorem step_raises_invalidOpcode (hpc : s.pc.toNat < s.memCells)
    (he : Ucode.entry (opcodeCell s) Ucode.reference = none) :
    step s = .next ({ s with adb := s.adr, adr := s.pc }.takeFatal
      (.invalidOpcode s.pc (opcodeCell s)) (Fetch.sequence.drop 3)) :=
  step_of_fetch_stops hs (fetch_raises_invalidOpcode hs hpc he) (State.takeFatal_stopped ..)

/-- A step with PC + 1 outside memory (R202). -/
theorem step_raises_at_operandRead {ws : List ControlWord} (hpc : s.pc.toNat < s.memCells)
    (hpc1 : s.memCells ≤ (s.pc + 1).toNat) (he : Ucode.entry (opcodeCell s) Ucode.reference = some ws) :
    step s = .next ({ s with ir := opcodeCell s, pc := s.pc + 1, adb := s.adr, adr := s.pc + 1 }.takeFatal
      (.addressError (s.pc + 1)) (Fetch.sequence.drop 5 ++ ws)) :=
  step_of_fetch_stops hs (fetch_raises_at_operandRead hs hpc hpc1 he) (State.takeFatal_stopped ..)

end

/-! ## The step as the ticks up to the next boundary -/

/-- A tick that leaves the machine running with words queued is followed by the ticks up to the boundary (R116). -/
theorem runToBoundary_tick {rom : Ucode} {n : Nat} {s u : State} (h : tickWith rom s = .next u) (hu : u.Running)
    (hq : u.q.isEmpty = false) : runToBoundary rom (n + 1) s = runToBoundary rom n u := by
  simp [runToBoundary, h, State.stopped_eq_false.2 hu, hq]

/-- A tick that stops the machine ends the ticks up to the boundary (R116). -/
theorem runToBoundary_stops {rom : Ucode} {n : Nat} {s t : State} (h : tickWith rom s = .next t)
    (ht : t.stopped = true) : runToBoundary rom (n + 1) s = .next t := by
  simp [runToBoundary, h, ht]

/-- When no word queued behind the first tick decodes, the ticks up to the boundary are that tick and then one a word
(R105, R116). -/
theorem runToBoundary_drains {rom : Ucode} {n : Nat} {s u : State} (h : tickWith rom s = .next u)
    (hq : u.q.isEmpty = false)
    (hd : Entry.noDec u.q = true) (hn : u.q.length ≤ n) :
    runToBoundary rom (n + 1) s = runTicks rom (1 + u.q.length) s := by
  cases hst : u.stopped with
  | true => rw [runToBoundary_stops h hst, Nat.add_comm, runTicks, h]; simp [hst]
  | false =>
    have hu := State.stopped_eq_false.1 hst
    rw [runToBoundary_tick h hu hq, runToBoundary_noDec rfl (List.isEmpty_eq_false_iff.1 hq) hd hn hu,
      (Reaches.of_tickWith h hu).runTicks_add (tickWith_next h).1]

/-- An entry of the reference ROM has at most three words and none decodes (R112, R113 a, R118). -/
theorem reference_entry {op : Word} {ws : List ControlWord} (he : Ucode.entry op Ucode.reference = some ws) :
    ws.length ≤ 3 ∧ Entry.noDec ws = true := by
  obtain ⟨hlen, hdec, -⟩ := Entry.wf_parts (Ucode.wf_row referenceRomIsWellFormed.1 (Ucode.entry_mem he))
  exact ⟨hlen, hdec⟩

/-- A tick whose popped word is asserted without a raise answers the committed state (R94 to R96, R120). -/
theorem tickWith_of_popped {rom : Ucode} {w : ControlWord} {q : List ControlWord} {s t : State} (hs : s.Running)
    (hq : popped s.q = (w, q)) (hw : w.wf = true) (h : assertWord rom w q s = .ok t) : tickWith rom s = .next t := by
  rw [tickWith_running hs, hq, tickWord, if_pos hw, h]

/-- The state fetch ticks 1 and 2 leave (`fetch_reaches_opcodeRead`). -/
def atOpcodeRead (s : State) : State := { s with adb := s.adr, adr := s.pc, bus := 0, q := Fetch.sequence.drop 2 }

section
variable {s : State} (hs : s.Idle)
include hs

/-- Fetch ticks 1 and 2 do not reach a boundary (R109, R116). -/
theorem runToBoundary_from_opcodeRead (rom : Ucode) (n : Nat) :
    runToBoundary rom (n + 2) s = runToBoundary rom n (atOpcodeRead s) := by
  obtain ⟨hrun, hq⟩ := hs
  have h1 : tickWith rom s = .next { s with adb := s.adr, bus := 0, q := Fetch.sequence.drop 1 } :=
    tickWith_of_popped hrun (by rw [hq]; rfl) (ControlWord.wf_copy ..) (assertWord_copy ..)
  have h2 : tickWith rom { s with adb := s.adr, bus := 0, q := Fetch.sequence.drop 1 } = .next (atOpcodeRead s) :=
    tickWith_of_popped hrun rfl (ControlWord.wf_copy ..) (assertWord_copy ..)
  rw [runToBoundary_tick h1 hrun rfl, runToBoundary_tick h2 hrun rfl]

/-- A raise at fetch tick 3 ends the ticks up to the boundary (R201, R202). -/
theorem runToBoundary_raises_at_opcodeRead {rom : Ucode} {c : FatalCondition}
    (h : assertWord rom Fetch.word3 (Fetch.sequence.drop 3) (atOpcodeRead s) = .error c) :
    runToBoundary rom maxInstructionTicks s = .next ((atOpcodeRead s).takeFatal c (Fetch.sequence.drop 3)) :=
  (runToBoundary_from_opcodeRead hs rom 7).trans
    (runToBoundary_stops (tickWith_of_raise hs.1 rfl rfl h) (State.takeFatal_stopped ..))

/-- With an opcode at PC the ticks up to the boundary are the six fetch ticks and one a word of the entry (R114). -/
theorem runToBoundary_eq_runTicks {ws : List ControlWord} (hpc : s.pc.toNat < s.memCells)
    (he : Ucode.entry (opcodeCell s) Ucode.reference = some ws) :
    runToBoundary Ucode.reference maxInstructionTicks s =
      runTicks Ucode.reference (Config.fetchLen + ws.length) s := by
  obtain ⟨hlen, hdec⟩ := reference_entry he
  have h2 := fetch_reaches_opcodeRead (rom := Ucode.reference) hs
  have h3 := tickWith_of_commit h2.2 rfl (by rfl)
    (assertWord_fetch3 Ucode.reference (Fetch.sequence.drop 3) ws _ hpc he)
  have hq : (Fetch.sequence.drop 3 ++ ws).length = 3 + ws.length := List.length_append
  have hticks : 2 + (1 + (3 + ws.length)) = Config.fetchLen + ws.length := by
    simp only [Config.fetchLen]
    omega
  calc runToBoundary Ucode.reference maxInstructionTicks s
    _ = runToBoundary Ucode.reference (6 + 1) (atOpcodeRead s) := runToBoundary_from_opcodeRead hs _ (6 + 1)
    _ = runTicks Ucode.reference (1 + (Fetch.sequence.drop 3 ++ ws).length) _ :=
      runToBoundary_drains h3 rfl hdec (by simp only [hq]; omega)
    _ = runTicks Ucode.reference (2 + (1 + (Fetch.sequence.drop 3 ++ ws).length)) s := (h2.runTicks_add hs.1 _).symm
    _ = runTicks Ucode.reference (Config.fetchLen + ws.length) s := by rw [hq, hticks]

end

/-- A meaning from the state the fetch leaves is the ticks of what the fetch queued (R110, R116). -/
theorem exec_afterFetch {s : State} {i : Instr} (hs : s.Running)
    (hi : decodeCells (opcodeCell s) (operandCell s) = .ok i) :
    exec i (afterFetch s i.microcode) =
      runTicks Ucode.reference i.microcode.length (afterFetch s i.microcode) := by
  have hopd : i.operand = (afterFetch s i.microcode).ir := (decodeCells_ok.1 hi).2.symm
  rw [exec_eq_execute, execute_running (s := afterFetch s i.microcode) hs, hopd]
  rfl

/-- Settles O21: a raising fetch tick ends the step and the ticks alike; with an opcode at PC the ticks are the fetch's
and the entry's (`runToBoundary_eq_runTicks`), and the meaning is the entry's (`exec_afterFetch`). -/
theorem stepIsTheTicksOfOneInstruction : Obligations.StepIsTheTicksOfOneInstruction := by
  unfold Obligations.StepIsTheTicksOfOneInstruction
  intro s hs
  rcases fetch_cases s with hpc | ⟨hpc, he⟩ | ⟨hpc, hpc1, ws, he⟩ | ⟨hpc, hpc1, i, hi⟩
  · rw [step_raises_at_opcodeRead hs hpc,
      runToBoundary_raises_at_opcodeRead hs (assertWord_load_raises _ _ _ (atOpcodeRead s) rfl hpc)]
    rfl
  · rw [step_raises_invalidOpcode hs hpc he,
      runToBoundary_raises_at_opcodeRead hs (assertWord_fetch3_raises _ _ (atOpcodeRead s) hpc he)]
    rfl
  · rw [runToBoundary_eq_runTicks hs hpc he, runTicks_add hs.1, fetch_raises_at_operandRead hs hpc hpc1 he,
      step_raises_at_operandRead hs hpc hpc1 he, thenTicks, if_pos (State.takeFatal_stopped ..)]
  · have he : Ucode.entry (opcodeCell s) Ucode.reference = some i.microcode := by
      rw [(decodeCells_ok.1 hi).1, entry_microcode]
    rw [step_eq_exec hs hpc hpc1 hi, exec_afterFetch hs.1 hi, runToBoundary_eq_runTicks hs hpc he,
      (fetch_reaches_afterFetch hs hpc hpc1 he).runTicks_add hs.1]

end Sys2Proof.Machine
end

section
/-! PROOFS. The invariant (R29, R31, R32, R34, R211, R219). A tick of a legal queue pops a word of the ROM or of the
fetch sequence; what such a word can do keeps every clause. -/

namespace Sys2Proof.Machine

/-! ## The control queue -/

/-- The words a legal queue holds: those of the fetch sequence and of the reference ROM's entries (R109, R118). -/
def IsRomWord (w : ControlWord) : Prop := w ∈ Fetch.sequence ∨ ∃ row ∈ Ucode.reference, w ∈ row.2

/-- The words of the ROM are well-formed (R93). -/
theorem IsRomWord.wf {w : ControlWord} (h : IsRomWord w) : w.wf = true := by
  rcases h with h | ⟨row, hrow, hw⟩
  · exact List.all_eq_true.1 referenceRomIsWellFormed.2.1 w h
  · have hentry := Ucode.wf_row referenceRomIsWellFormed.1 hrow
    simp only [Entry.wf, Bool.and_eq_true] at hentry
    obtain ⟨⟨⟨⟨-, hall⟩, -⟩, -⟩, -⟩ := hentry
    exact List.all_eq_true.1 hall w hw

/-- No word of the ROM drives or latches FL (R29). -/
theorem IsRomWord.ignores_fl {w : ControlWord} (h : IsRomWord w) :
    w.has (.drv .fl) = false ∧ w.has (.lat .fl) = false := by
  have hfetch : ∀ w ∈ Fetch.sequence, w.has (.drv .fl) = false ∧ w.has (.lat .fl) = false := by decide
  have hrom : ∀ row ∈ Ucode.reference, ∀ w ∈ row.2, w.has (.drv .fl) = false ∧ w.has (.lat .fl) = false := by decide
  rcases h with h | ⟨row, hrow, hw⟩
  · exact hfetch w h
  · exact hrom row hrow w hw

/-- What is left of an entry is a legal queue (R32). -/
theorem queueLegal_entry {op : Word} {ws : List ControlWord} (he : Ucode.entry op Ucode.reference = some ws) (j : Nat) :
    QueueLegal (ws.drop j) :=
  .inr ⟨6, op, ws, j, by decide, by decide, he, fun h => absurd h (by decide), rfl⟩

/-- The last fetch words with an entry behind them are a legal queue (R32). -/
theorem queueLegal_afterDecode {op : Word} {ws : List ControlWord} (he : Ucode.entry op Ucode.reference = some ws)
    {n : Nat} (h3 : 3 ≤ n) (h6 : n ≤ 6) : QueueLegal (Fetch.sequence.drop n ++ ws) :=
  .inr ⟨n, op, ws, 0, h3, h6, he, fun _ => rfl, rfl⟩

/-- The fetch words behind the decode, one by one: none of them decodes (R109). -/
theorem fetch_drop_cons : ∀ n < 6, 3 ≤ n →
    ∃ w ∈ Fetch.sequence, w.has .dec = false ∧ Fetch.sequence.drop n = w :: Fetch.sequence.drop (n + 1) := by decide

/-- What a tick pops from a legal queue: fetch word 3, or a word that does not decode and leaves a legal queue (R95,
R96, R105). -/
theorem QueueLegal.pop {q : List ControlWord} (h : QueueLegal q) :
    q = Fetch.sequence.drop 2 ∨
      (IsRomWord (popped q).1 ∧ (popped q).1.has .dec = false ∧ QueueLegal (popped q).2) := by
  rcases h with ⟨n, h1, h2, rfl⟩ | ⟨n, op, ws, j, h3, h6, he, hj, rfl⟩
  · rcases (by omega : n = 1 ∨ n = 2) with rfl | rfl
    · exact .inr ⟨.inl (by decide), rfl, .inl ⟨2, by decide, by decide, rfl⟩⟩
    · exact .inl rfl
  · right
    rcases Nat.lt_or_eq_of_le h6 with hlt | rfl
    · obtain rfl := hj hlt
      obtain ⟨w, hw, hdec, hseq⟩ := fetch_drop_cons n hlt h3
      rw [hseq]
      exact ⟨.inl hw, hdec, queueLegal_afterDecode he (by omega) hlt⟩
    · have hrest : Fetch.sequence.drop Config.fetchLen ++ ws.drop j = ws.drop j := rfl
      rw [hrest]
      cases hq : ws.drop j with
      | nil => exact ⟨.inl (by decide), rfl, .inl ⟨1, by decide, by decide, rfl⟩⟩
      | cons w q =>
        have hw : w ∈ ws := List.mem_of_mem_drop (hq ▸ List.mem_cons_self)
        refine ⟨.inr ⟨_, Ucode.entry_mem he, hw⟩, ?_, ?_⟩
        · simpa using List.all_eq_true.1 (reference_entry he).2 w hw
        · have htail : ws.drop (j + 1) = q := by rw [← List.tail_drop, hq, List.tail_cons]
          exact htail ▸ queueLegal_entry he (j + 1)

/-- The word a tick pops from a legal queue is one of the ROM. -/
theorem QueueLegal.popped_isRomWord {q : List ControlWord} (h : QueueLegal q) : IsRomWord (popped q).1 := by
  rcases h.pop with rfl | ⟨hw, -, -⟩
  · exact .inl (by decide)
  · exact hw

/-- The queue a tick leaves behind its popped word is legal, when nothing is decoded. -/
theorem QueueLegal.popped_rest {q : List ControlWord} (h : QueueLegal q) : QueueLegal (popped q).2 := by
  rcases h.pop with rfl | ⟨-, -, hrest⟩
  · exact queueLegal_afterDecode (entry_microcode (.nop 0)) (n := 3) (by decide) (by decide)
  · exact hrest

/-- A committed tick leaves the rest of a legal queue, or has just decoded at fetch word 3 (R96, R105). -/
theorem QueueLegal.after_commit {s t : State} (h : QueueLegal s.q)
    (ht : assertWord Ucode.reference (popped s.q).1 (popped s.q).2 s = .ok t) :
    ((popped s.q).1.has .dec = false ∧ t.q = (popped s.q).2) ∨
      (s.q = Fetch.sequence.drop 2 ∧
        ∃ op ws, Ucode.entry op Ucode.reference = some ws ∧ t.q = Fetch.sequence.drop 3 ++ ws) := by
  rcases h.pop with hq | ⟨-, hdec, -⟩
  · right
    refine ⟨hq, ?_⟩
    rw [hq] at ht
    obtain ⟨bus, mem, ports, q', -, -, -, hdecode, rfl⟩ := assertWord_ok.1 ht
    cases he : Ucode.entry bus Ucode.reference with
    | none =>
      rw [decodePoint_no_entry (by rfl) (by rfl) he] at hdecode
      cases hdecode
    | some ws =>
      rw [decodePoint_entry (by rfl) (by rfl) he] at hdecode
      exact ⟨bus, ws, he, (Except.ok.inj hdecode).symm⟩
  · exact .inl ⟨hdec, assertWord_queue hdec ht⟩

/-- Every tick keeps the queue legal (R32). -/
theorem QueueLegal.after_tick {s t : State} (h : QueueLegal s.q) (ht : tick s = .next t) : QueueLegal t.q := by
  obtain ⟨-, -, ⟨c, -, rfl⟩ | hcommit⟩ := tickWith_next ht
  · exact h.popped_rest
  · rcases h.after_commit hcommit with ⟨-, hq⟩ | ⟨-, op, ws, he, hq⟩
    · exact hq ▸ h.popped_rest
    · exact hq ▸ queueLegal_afterDecode he (by decide) (by decide)

/-- A legal queue has at most six words (R32, R109, R112). -/
theorem QueueLegal.length_le {q : List ControlWord} (h : QueueLegal q) : q.length ≤ 6 := by
  have hseq : Fetch.sequence.length = 6 := rfl
  rcases h with ⟨n, h1, -, rfl⟩ | ⟨n, op, ws, j, h3, -, he, -, rfl⟩
  · rw [List.length_drop]
    omega
  · have hlen := (reference_entry he).1
    rw [List.length_append, List.length_drop, List.length_drop]
    omega

/-- Settles O46: at most five fetch words, or three of them and an entry (`QueueLegal.length_le`). -/
theorem queueHoldsAtMostSixWords : Obligations.QueueHoldsAtMostSixWords := by
  unfold Obligations.QueueHoldsAtMostSixWords
  exact fun s h => h.queue.length_le

/-! ## A tick keeps the other clauses -/

theorem State.stopped_eq (s : State) : s.stopped = (s.halted || s.fault.isSome) := by
  cases hh : s.halted <;> cases hf : s.fault <;> simp [State.stopped, State.stopReason, hh, hf]

/-- Memory is canonical and within its size (R34). -/
def MemoryOk (memCells : Nat) (m : Memory) : Prop := m.wf ∧ ∀ c ∈ m, c.1 < memCells

/-- The write phase keeps memory canonical and within its size (R54). -/
theorem writeMemory_memoryOk {w : ControlWord} {bus : Word} {s : State} {mem : Memory} (hs : MemoryOk s.memCells s.mem)
    (h : writeMemory w bus s = .ok mem) : MemoryOk s.memCells mem := by
  unfold writeMemory at h
  split at h
  next =>
    obtain ⟨hadr, rfl⟩ := State.memWrite_ok.1 h
    refine ⟨Memory.write_wf hs.1 _ _, fun c hc => ?_⟩
    rcases Memory.mem_write hc with rfl | hc
    · exact hadr
    · exact hs.2 c hc
  next => exact Except.ok.inj h ▸ hs

/-- The write phase keeps the number of ports (R35). -/
theorem writePort_length {w : ControlWord} {bus : Word} {s : State} {ports : List Word}
    (h : writePort w bus s = .ok ports) : ports.length = s.nPorts := by
  unfold writePort at h
  split at h
  next =>
    obtain ⟨-, rfl⟩ := State.perWrite_ok.1 h
    exact List.length_set
  next => exact Except.ok.inj h ▸ rfl

/-- A committed tick disconnects exactly when its word has HLT (R106, R219). -/
theorem tickEvents_count_disconnect (w : ControlWord) (bus : Word) (s : State) :
    (tickEvents w bus s).count .disconnect = if w.has .hlt then 1 else 0 := by
  unfold tickEvents
  split_ifs <;> rfl

/-- A running machine that meets the invariant has disconnected nothing yet (R219). -/
theorem State.Inv.no_disconnect {s : State} (h : s.Inv) (hs : s.Running) : s.history.count .disconnect = 0 := by
  rw [h.disconnect, State.stopped_eq_false.2 hs]
  rfl

/-- Taking a fatal condition keeps the invariant (R205, R211, R219). -/
theorem State.Inv.takeFatal {s : State} (h : s.Inv) (hs : s.Running) (c : FatalCondition) {q : List ControlWord}
    (hq : QueueLegal q) : (s.takeFatal c q).Inv where
  memory := h.memory
  memoryBound := h.memoryBound
  sizes := h.sizes
  ports := h.ports
  bus := rfl
  flags := h.flags
  queue := hq
  oneEnd := fun hhalt => absurd hhalt (by simp [hs.1])
  disconnect := by rw [State.takeFatal_history, List.count_append, h.no_disconnect hs, State.takeFatal_stopped]; rfl

/-- A committed tick of a word of the ROM keeps the invariant when it leaves a legal queue. -/
theorem State.Inv.commit {s t : State} {w : ControlWord} {q : List ControlWord} (h : s.Inv) (hs : s.Running)
    (hw : IsRomWord w) (ht : assertWord Ucode.reference w q s = .ok t) (hq : QueueLegal t.q) : t.Inv := by
  obtain ⟨bus, mem, ports, q', -, hmem, hports, -, rfl⟩ := assertWord_ok.1 ht
  obtain ⟨hwf, hbound⟩ := writeMemory_memoryOk ⟨h.memory, h.memoryBound⟩ hmem
  refine ⟨hwf, hbound, h.sizes, (writePort_length hports).trans_le h.ports, rfl, ?flags, hq, fun _ => hs.2, ?disconnect⟩
  case flags =>
    rw [committed_fl, latched, hw.ignores_fl.2]
    exact h.flags
  case disconnect =>
    rw [committed_history, List.count_append, h.no_disconnect hs, tickEvents_count_disconnect, State.stopped_eq]
    simp [hs.1, hs.2]

/-- A tick of the reference ROM keeps the invariant. -/
theorem State.Inv.tick {s t : State} (h : s.Inv) (ht : Machine.tick s = .next t) : t.Inv := by
  obtain ⟨hs, -, ⟨c, -, rfl⟩ | hcommit⟩ := tickWith_next ht
  · exact h.takeFatal hs c h.queue.popped_rest
  · exact h.commit hs h.queue.popped_isRomWord hcommit (h.queue.after_tick ht)

/-- Settles O42: a raise keeps the invariant (`State.Inv.takeFatal`), and so does a commit (`State.Inv.commit`), whose
queue is legal (`QueueLegal.after_tick`). -/
theorem tickKeepsTheInvariant : Obligations.TickKeepsTheInvariant := by
  unfold Obligations.TickKeepsTheInvariant
  exact fun s t => State.Inv.tick

end Sys2Proof.Machine
end

section
/-! PROOFS. The invariant over steps (R116, R253). A step is a run of ticks up to a boundary, with more ticks at hand
than the queue can need. -/

namespace Sys2Proof.Machine

/-! ## How many ticks a queue needs -/

/-- At most how many ticks lead from a boundary of the ticks with this queue to an empty queue: one a word, and three
more while the decode is still to come (R112, R114). -/
def ticksNeeded (q : List ControlWord) : Nat :=
  1 + (popped q).2.length + if Entry.noDec ((popped q).1 :: (popped q).2) then 0 else 3

theorem ticksNeeded_cons (w : ControlWord) (q : List ControlWord) :
    ticksNeeded (w :: q) = 1 + q.length + if Entry.noDec (w :: q) then 0 else 3 := rfl

/-- From an empty queue nine ticks are enough (R114). -/
theorem ticksNeeded_nil : ticksNeeded [] = maxInstructionTicks := rfl

/-- Behind the decode the queue needs one tick a word (R114). -/
theorem ticksNeeded_afterDecode {ws : List ControlWord} (hd : Entry.noDec ws = true) :
    ticksNeeded (Fetch.sequence.drop 3 ++ ws) = 3 + ws.length := by
  have hpop : Fetch.sequence.drop 3 ++ ws = Fetch.word2 :: (Fetch.sequence.drop 4 ++ ws) := rfl
  have hlen : (Fetch.sequence.drop 4).length = 2 := rfl
  rw [hpop, ticksNeeded_cons, ← hpop, noDec_afterDecode, hd, if_pos rfl, List.length_append, hlen]
  omega

/-- Every tick of a legal queue that does not end the instruction lowers what is needed. -/
theorem ticksNeeded_after_commit {s t : State} (h : QueueLegal s.q)
    (ht : assertWord Ucode.reference (popped s.q).1 (popped s.q).2 s = .ok t) (hne : t.q ≠ []) :
    ticksNeeded t.q < ticksNeeded s.q := by
  rcases h.after_commit ht with ⟨hdec, hq⟩ | ⟨hs, op, ws, he, hq⟩
  · rw [hq] at hne ⊢
    obtain ⟨w, q, hrest⟩ := List.exists_cons_of_ne_nil hne
    have hnoDec : Entry.noDec ((popped s.q).1 :: w :: q) = Entry.noDec (w :: q) := by simp [Entry.noDec, hdec]
    rw [hrest, ticksNeeded_cons, ticksNeeded, hrest, hnoDec, List.length_cons]
    omega
  · obtain ⟨hlen, hdec⟩ := reference_entry he
    rw [hq, hs, ticksNeeded_afterDecode hdec, show ticksNeeded (Fetch.sequence.drop 2) = 7 from rfl]
    omega

/-- In the middle of an instruction a step has ticks enough (R116). -/
theorem ticksNeeded_le_ticksLeft {s : State} (hq : s.q ≠ []) : ticksNeeded s.q ≤ ticksLeft s := by
  obtain ⟨w, q, hq⟩ := List.exists_cons_of_ne_nil hq
  rw [ticksLeft, hq, ticksNeeded_cons, List.length_cons]
  split <;> omega

/-- A step of a running machine is a run of ticks up to the boundary, with ticks enough (R116). -/
theorem step_eq_runToBoundary {s : State} (hs : s.Running) :
    ∃ n, ticksNeeded s.q ≤ n ∧ step s = runToBoundary Ucode.reference n s := by
  cases hq : s.q with
  | nil => exact ⟨maxInstructionTicks, ticksNeeded_nil.le, stepIsTheTicksOfOneInstruction s ⟨hs, hq⟩⟩
  | cons w q =>
    refine ⟨ticksLeft s, hq ▸ ticksNeeded_le_ticksLeft (by simp [hq]), ?_⟩
    simp only [step, hs.stopReason, hq]

/-! ## What a step keeps, and how it ends -/

/-- A stopped machine answers no next state (R222). -/
theorem running_of_step {s t : State} (h : step s = .next t) : s.Running := by
  cases hr : s.stopReason with
  | none => exact State.stopReason_eq_none.1 hr
  | some r => rw [step_stopped hr] at h; cases h

/-- Settles O43: a step is a run of ticks (`step_eq_runToBoundary`), each of which keeps the invariant. -/
theorem stepKeepsTheInvariant : Obligations.StepKeepsTheInvariant := by
  unfold Obligations.StepKeepsTheInvariant
  intro s t hInv h
  obtain ⟨n, -, hticks⟩ := step_eq_runToBoundary (running_of_step h)
  exact runToBoundary_keeps (fun _ _ => State.Inv.tick) n s t hInv (hticks ▸ h)

/-- A running machine that meets the invariant has a next tick: its word is well-formed (R93, R253). -/
theorem State.Inv.tick_exists {s : State} (h : s.Inv) (hs : s.Running) : ∃ t, Machine.tick s = .next t :=
  tickWith_exists hs h.queue.popped_isRomWord.wf

/-- The ticks up to the boundary of a running machine that meets the invariant answer a next state (R253). -/
theorem State.Inv.runToBoundary_exists {n : Nat} {s : State} (h : s.Inv) (hs : s.Running) :
    ∃ t, runToBoundary Ucode.reference n s = .next t := by
  induction n generalizing s with
  | zero => exact ⟨s, rfl⟩
  | succ n ih =>
    obtain ⟨t, ht⟩ := h.tick_exists hs
    rw [runToBoundary, show tickWith Ucode.reference s = .next t from ht]
    simp only
    split
    next => exact ⟨t, rfl⟩
    next hgo =>
      simp only [Bool.or_eq_true, not_or, Bool.not_eq_true] at hgo
      exact ih (h.tick ht) (State.stopped_eq_false.1 hgo.1)

/-- Settles O44: a legal queue pops a well-formed word, at every tick of the step. -/
theorem runningMachineAlwaysSteps : Obligations.RunningMachineAlwaysSteps := by
  unfold Obligations.RunningMachineAlwaysSteps
  intro s h hs
  obtain ⟨n, -, hticks⟩ := step_eq_runToBoundary hs
  exact ⟨h.tick_exists hs, hticks ▸ h.runToBoundary_exists hs⟩

/-- With ticks enough, the ticks up to the boundary end at one or stop the machine (R116). -/
theorem State.Inv.runToBoundary_ends {n : Nat} {s t : State} (h : s.Inv) (hn : ticksNeeded s.q ≤ n)
    (ht : runToBoundary Ucode.reference n s = .next t) : t.stopped = true ∨ t.q = [] := by
  induction n generalizing s with
  | zero => simp [ticksNeeded] at hn
  | succ n ih =>
    rw [runToBoundary] at ht
    cases hu : tickWith Ucode.reference s with
    | fault r => rw [hu] at ht; cases ht
    | refused r => rw [hu] at ht; cases ht
    | next u =>
      simp only [hu] at ht
      split at ht
      next hend =>
        cases ht
        simpa using hend
      next hgo =>
        simp only [Bool.or_eq_true, not_or, Bool.not_eq_true, List.isEmpty_eq_false_iff] at hgo
        obtain ⟨hrun, hne⟩ := hgo
        have hcommit := tickWith_commits hu (State.stopped_eq_false.1 hrun).2
        exact ih (h.tick hu) (by have := ticksNeeded_after_commit h.queue hcommit hne; omega) ht

/-- A stopped machine that meets the invariant has one of the two ends (R211, R253). -/
theorem State.Inv.ended {s : State} (h : s.Inv) (hs : s.stopped = true) : s.EndedHalted ∨ s.EndedFaulted := by
  rw [State.stopped_eq] at hs
  cases hhalt : s.halted with
  | true => exact .inl ⟨hhalt, h.oneEnd hhalt⟩
  | false => exact .inr ⟨hhalt, fun hfault => by simp [hhalt, hfault] at hs⟩

/-- Settles O45: the ticks of a step reach a boundary or stop the machine (`State.Inv.runToBoundary_ends`), and halt and
fault exclude each other (`State.Inv.ended`). -/
theorem stepEndsAtABoundaryOrAnEnd : Obligations.StepEndsAtABoundaryOrAnEnd := by
  unfold Obligations.StepEndsAtABoundaryOrAnEnd
  intro s t h hst
  obtain ⟨n, hn, hticks⟩ := step_eq_runToBoundary (running_of_step hst)
  cases hstop : t.stopped with
  | true => exact .inr ((stepKeepsTheInvariant s t h hst).ended hstop)
  | false =>
    rcases h.runToBoundary_ends hn (hticks ▸ hst) with ht | hq
    · rw [hstop] at ht
      cases ht
    · exact .inl ⟨State.stopped_eq_false.1 hstop, hq⟩

/-! ## Where a run starts -/

/-- A machine that starts with a canonical memory within its size, and sizes in range, meets the invariant (R7, R41). -/
theorem State.start_inv {memCells nPorts : Nat} {m : Memory} {pc : Word} (hm : MemoryOk memCells m)
    (hsize : Config.minMemCells ≤ memCells ∧ memCells ≤ Config.maxMemCells) (hports : nPorts ≤ Config.maxPorts) :
    (State.start memCells nPorts m pc).Inv where
  memory := hm.1
  memoryBound := hm.2
  sizes := hsize
  ports := List.length_replicate.trans_le hports
  bus := rfl
  flags := rfl
  queue := queueLegal_entry (entry_microcode (.nop 0)) 0
  oneEnd := fun _ => rfl
  disconnect := rfl

/-- Settles O41: the machine after reset starts with no cell listed (`State.start_inv`). -/
theorem resetMeetsTheInvariant : Obligations.ResetMeetsTheInvariant := by
  unfold Obligations.ResetMeetsTheInvariant
  exact State.start_inv ⟨Memory.nil_wf, by simp⟩ (by decide) (by decide)

end Sys2Proof.Machine
end

section
/-! PROOFS. The other meanings (R130 to R187, R193, R194), each the run of its entry of R118. -/

namespace Sys2Proof

/-- MOV names two registers, never IR, and has the copy as its entry (R76, R130). -/
theorem Instr.moveRegs_microcode {i : Instr} {d r : Reg} (h : i.moveRegs = some (d, r)) :
    i.microcode = Entry.mov d r ∧ r ≠ .ir := by
  cases i <;> cases h <;> exact ⟨rfl, by decide⟩

/-- LDI copies IR to its register (R151). -/
theorem Instr.immediateReg_microcode {i : Instr} {r : Reg} (h : i.immediateReg = some r) :
    i.microcode = Entry.ldi r := by
  cases i <;> cases h <;> rfl

/-- LD puts the operand in ADR and the cell in its register (R151). -/
theorem Instr.loadReg_microcode {i : Instr} {r : Reg} (h : i.loadReg = some r) : i.microcode = Entry.ld r := by
  cases i <;> cases h <;> rfl

/-- ST puts the operand in ADR and its register in the cell (R151). -/
theorem Instr.storeReg_microcode {i : Instr} {r : Reg} (h : i.storeReg = some r) :
    i.microcode = Entry.st r ∧ i.memoryAddress = some i.operand ∧ r ≠ .ir := by
  cases i <;> cases h <;> exact ⟨rfl, rfl, by decide⟩

namespace Machine

/-- Settles O23: the length of each instruction's entry in the reference ROM. -/
theorem executeTicksPerInstruction : Obligations.ExecuteTicksPerInstruction := by
  unfold Obligations.ExecuteTicksPerInstruction
  intro i
  cases i <;> rfl

/-- A latch by the last word of an entry, in the terms of the statements (R102, R116). -/
theorem latch_eq_recomputeSum (s : State) (ws : List ControlWord) (opd v : Word) (d : Reg) :
    ({ s with ir := opd, q := ws } : State).latch [] d v = ((s.afterExecute opd).setReg d v).recomputeSum d := by
  cases d <;> rfl

/-- The register a MOV or a store reads is not the one the fetch has filled with the operand (R110). -/
theorem State.reg_of_ne_ir (s : State) (ws : List ControlWord) (opd : Word) {r : Reg} (hr : r ≠ .ir) :
    ({ s with ir := opd, q := ws } : State).reg r = s.reg r := by
  cases r with
  | ir => exact absurd rfl hr
  | _ => rfl

section
variable {s : State} (hs : s.Running)
include hs

/-- An entry that is one copy (R130, R151). -/
theorem execute_copy (opd : Word) (d r : Reg) : execute [[.drv r, .lat d]] opd s = .next
    (((s.afterExecute opd).setReg d (({ s with ir := opd } : State).reg r)).recomputeSum d) :=
  calc execute [[.drv r, .lat d]] opd s
    _ = runTicks _ 1 { s with ir := opd, q := [[.drv r, .lat d]] } := execute_running hs
    _ = .next (({ s with ir := opd, q := [[.drv r, .lat d]] } : State).latch [] d
          (({ s with ir := opd, q := [[.drv r, .lat d]] } : State).reg r)) :=
      runTicks_ok hs rfl (ControlWord.wf_copy r d) (assertWord_copy ..) (by simpa [State.Running] using hs)
    _ = _ := by
      rw [latch_eq_recomputeSum]
      cases r <;> rfl

/-- MOV d,r (R130). -/
theorem exec_mov {i : Instr} {d r : Reg} (hi : i.moveRegs = some (d, r)) :
    exec i s = .next (((s.afterExecute i.operand).setReg d (s.reg r)).recomputeSum d) := by
  obtain ⟨hws, hr⟩ := Instr.moveRegs_microcode hi
  rw [exec_eq_execute, hws, Entry.mov, execute_copy hs, s.reg_of_ne_ir s.q i.operand hr]

/-- LDI r (R157 to R161). -/
theorem exec_ldi {i : Instr} {r : Reg} (hi : i.immediateReg = some r) :
    exec i s = .next (((s.afterExecute i.operand).setReg r i.operand).recomputeSum r) := by
  rw [exec_eq_execute, Instr.immediateReg_microcode hi, Entry.ldi, execute_copy hs, State.reg_ir]

/-- LD r with the operand in range (R152 to R156). -/
theorem exec_ld {i : Instr} {r : Reg} (hi : i.loadReg = some r) (hopd : i.operand.toNat < s.memCells) :
    exec i s = .next ((((s.afterExecute i.operand).setReg .adr i.operand).setReg r
      (s.mem.read i.operand.toNat)).recomputeSum r) := by
  rw [exec_eq_execute, Instr.loadReg_microcode hi, execute_ld hs hopd]

/-- ST r with the operand in range (R162 to R166). -/
theorem exec_st {i : Instr} {r : Reg} (hi : i.storeReg = some r) (hopd : i.operand.toNat < s.memCells) :
    exec i s = .next { s.afterExecute i.operand with
      adr := i.operand, mem := s.mem.write i.operand.toNat (if r = .adr then i.operand else s.reg r) } := by
  obtain ⟨hws, -, hr⟩ := Instr.storeReg_microcode hi
  have hreg : ((s.afterExecute i.operand).setReg .adr i.operand).reg r = if r = .adr then i.operand else s.reg r := by
    rw [State.reg_setReg]
    congr 1
    exact s.reg_of_ne_ir [] i.operand hr
  rw [exec_eq_execute, hws, execute_st hs hopd, hreg]

/-- ADD: the latch of B recomputes the sum, which ACC takes (R171). -/
theorem exec_add (opd : Word) :
    exec (.add opd) s = .next { s.afterExecute opd with sum := s.a + s.b, acc := s.a + s.b } :=
  calc exec (.add opd) s
    _ = runTicks _ 2 { s with ir := opd, q := Entry.add } := execute_running hs
    _ = runTicks _ 1 { s.afterExecute opd with sum := s.a + s.b, q := Entry.add.drop 1 } :=
      runTicks_ok hs rfl rfl (assertWord_copy ..) hs
    _ = _ := runTicks_ok hs rfl rfl (assertWord_alu ..).1 hs

/-- SUB: the latch of B looks ahead at SUB and recomputes the difference, which ACC takes (R172). -/
theorem exec_sub (opd : Word) :
    exec (.sub opd) s = .next { s.afterExecute opd with sum := s.a - s.b, acc := s.a - s.b } :=
  calc exec (.sub opd) s
    _ = runTicks _ 2 { s with ir := opd, q := Entry.sub } := execute_running hs
    _ = runTicks _ 1 { s.afterExecute opd with sum := s.a - s.b, q := Entry.sub.drop 1 } :=
      runTicks_ok hs rfl rfl (assertWord_copy ..) hs
    _ = _ := runTicks_ok hs rfl rfl (assertWord_alu ..).2 hs

/-- JMP copies IR to PC (R181). -/
theorem exec_jmp (opd : Word) : exec (.jmp opd) s = .next { s.afterExecute opd with pc := opd } :=
  execute_copy hs opd .pc .ir

/-- An instruction with the empty entry has no execute tick (R182, R183, R193). -/
theorem execute_nil (opd : Word) : execute [] opd s = .next { s with ir := opd, q := [] } := execute_running hs

/-- HLT halts and disconnects (R194). -/
theorem exec_hlt (opd : Word) : exec (.hlt opd) s =
    .next { s.afterExecute opd with halted := true, history := s.history ++ [.disconnect] } :=
  (execute_running hs).trans (runTicks_halt hs rfl rfl (assertWord_hlt ..) rfl)

end

/-- Settles O24 (`exec_mov`). -/
theorem movesCopyTheSource : Obligations.MovesCopyTheSource := by
  unfold Obligations.MovesCopyTheSource
  exact fun i d r s hs hi => exec_mov hs hi

/-- Settles O25 (`exec_ldi`). -/
theorem immediateLoadsTakeTheOperand : Obligations.ImmediateLoadsTakeTheOperand := by
  unfold Obligations.ImmediateLoadsTakeTheOperand
  exact fun i r s hs hi => exec_ldi hs hi

/-- Settles O26 (`exec_ld`). -/
theorem loadsTakeTheAddressedCell : Obligations.LoadsTakeTheAddressedCell := by
  unfold Obligations.LoadsTakeTheAddressedCell
  exact fun i r s hs hi hopd => exec_ld hs hi hopd

/-- Settles O27: the memory is the written one (`exec_st`), read by `Memory.read_write`. -/
theorem storesWriteTheAddressedCell : Obligations.StoresWriteTheAddressedCell := by
  unfold Obligations.StoresWriteTheAddressedCell
  intro i r s hs hi hopd
  refine ⟨_, exec_st hs hi hopd, fun addr haddr n => ?_⟩
  rw [(Instr.storeReg_microcode hi).2.1, Option.some.injEq] at haddr
  rw [haddr, Memory.read_write]

/-- Settles O28 (`exec_add`, `exec_sub`). -/
theorem addAndSubCombineAAndB : Obligations.AddAndSubCombineAAndB := by
  unfold Obligations.AddAndSubCombineAAndB
  exact fun s opd hs => ⟨exec_add hs opd, exec_sub hs opd⟩

/-- Settles O29 (`exec_addm`, `exec_subm`). -/
theorem addmAndSubmCombineAAndTheCell : Obligations.AddmAndSubmCombineAAndTheCell := by
  unfold Obligations.AddmAndSubmCombineAAndTheCell
  rintro s opd v hs hopd rfl
  exact ⟨exec_addm hs hopd, exec_subm hs hopd⟩

/-- Settles O30 (`exec_jmp`). -/
theorem jmpLoadsPc : Obligations.JmpLoadsPc := by
  unfold Obligations.JmpLoadsPc
  exact fun s opd hs => exec_jmp hs opd

/-- Settles O31: both entries are empty (`execute_nil`), and both conditions read as not set. -/
theorem conditionalJumpsAreGatedOnConditionsNeverSet : Obligations.ConditionalJumpsAreGatedOnConditionsNeverSet := by
  unfold Obligations.ConditionalJumpsAreGatedOnConditionsNeverSet
  exact fun s opd hs => ⟨execute_nil hs opd, execute_nil hs opd, rfl, rfl⟩

/-- Settles O32: what is presented is the environment's next value, or the free value if there is none (`exec_inp`). -/
theorem inLatchesThePresentedValue : Obligations.InLatchesThePresentedValue := by
  unfold Obligations.InLatchesThePresentedValue
  constructor
  · intro s opd v vs hs hb hin
    have hpres : s.presented s.b = v := by rw [State.presented, hin]
    rw [exec_inp hs opd hb, hpres, hin, List.tail_cons]
  · rintro s opd v hs hb hin rfl
    have hpres : s.presented s.b = Config.peripheralValue s.perReads s.b.toNat := by rw [State.presented, hin]
    rw [exec_inp hs opd hb, hpres, hin, List.tail_nil, ← hin]
    rfl

/-- Settles O33 (`exec_out`). -/
theorem outSendsAccThroughIo : Obligations.OutSendsAccThroughIo := by
  unfold Obligations.OutSendsAccThroughIo
  exact fun s opd hs hadr => exec_out hs opd hadr

/-- Settles O34 (`execute_nil`, `exec_hlt`). -/
theorem nopDoesNothingAndHltHalts : Obligations.NopDoesNothingAndHltHalts := by
  unfold Obligations.NopDoesNothingAndHltHalts
  exact fun s opd hs => ⟨execute_nil hs opd, exec_hlt hs opd⟩

end Machine

end Sys2Proof
end

section
/-! PROOFS. Frames (R30, R35, R36, R65). What no word of an instruction's microcode touches, its meaning keeps, whatever
way it ends. -/

namespace Sys2Proof

/-! ## Which signals an instruction's microcode has -/

/-- Does a word of the instruction's microcode have the signal? -/
def Instr.asserts (i : Instr) (x : Signal) : Bool := i.microcode.any fun w => w.has x

theorem Instr.has_of_asserts {i : Instr} {x : Signal} (h : i.asserts x = false) :
    ∀ w ∈ i.microcode, w.has x = false := by
  simpa [Instr.asserts] using h

/-- The registers an instruction's words latch, word by word, are the written ones (R30, R118). -/
theorem Instr.latched_eq_writtenRegs (i : Instr) :
    (i.microcode.flatMap fun w => Reg.all.filter fun r => w.has (.lat r)) = i.writtenRegs := by
  cases i <;> rfl

theorem Instr.asserts_lat {i : Instr} {r : Reg} (h : r ∉ i.writtenRegs) : i.asserts (.lat r) = false := by
  rw [← i.latched_eq_writtenRegs] at h
  simpa [Instr.asserts, Reg.mem_all] using h

/-- No execute tick latches IR or FL, or increments PC (R30, R118). -/
theorem Instr.asserts_lat_ir (i : Instr) : i.asserts (.lat .ir) = false := by cases i <;> rfl
theorem Instr.asserts_lat_fl (i : Instr) : i.asserts (.lat .fl) = false := by cases i <;> rfl
theorem Instr.asserts_pci (i : Instr) : i.asserts .pci = false := by cases i <;> rfl

/-- Only JMP latches PC (R186). -/
theorem Instr.asserts_lat_pc {i : Instr} (h : ∀ opd, i ≠ .jmp opd) : i.asserts (.lat .pc) = false := by
  cases i
  case jmp opd => exact absurd rfl (h opd)
  all_goals rfl

/-- The stores write memory (R151). -/
theorem Instr.asserts_memLat (i : Instr) : i.asserts .memLat = i.storeReg.isSome := by cases i <;> rfl

/-- Only IN queries a port (R188). -/
theorem Instr.asserts_perDrv {i : Instr} (h : ∀ opd, i ≠ .inp opd) : i.asserts .perDrv = false := by
  cases i
  case inp opd => exact absurd rfl (h opd)
  all_goals rfl

/-- Only OUT writes a port (R189). -/
theorem Instr.asserts_perLat {i : Instr} (h : ∀ opd, i ≠ .out opd) : i.asserts .perLat = false := by
  cases i
  case out opd => exact absurd rfl (h opd)
  all_goals rfl

/-- Only HLT halts (R194). -/
theorem Instr.asserts_hlt {i : Instr} (h : ∀ opd, i ≠ .hlt opd) : i.asserts .hlt = false := by
  cases i
  case hlt opd => exact absurd rfl (h opd)
  all_goals rfl

namespace Machine

/-! ## What the words keep, the meaning keeps -/

/-- What raises and the committed ticks of the queued words keep, their run keeps. -/
theorem runTicks_words_keep {rom : Ucode} {P : State → Prop} {ws : List ControlWord}
    (raise : ∀ s c q, P s → P (s.takeFatal c q))
    (commit : ∀ w ∈ ws, ∀ q s t, P s → assertWord rom w q s = .ok t → P t)
    (hd : Entry.noDec ws = true) {s t : State} (hq : s.q = ws) (hs : P s) (h : runTicks rom ws.length s = .next t) :
    P t := by
  induction ws generalizing s with
  | nil => exact Host.Outcome.next.inj h ▸ hs
  | cons w ws ih =>
    obtain ⟨hwd, hwsd⟩ : w.has .dec = false ∧ Entry.noDec ws = true := by simpa [Entry.noDec] using hd
    obtain ⟨u, hu, hend⟩ := runTicks_succ_next h
    have hPu : P u := by
      obtain ⟨-, -, ⟨c, -, rfl⟩ | hcommit⟩ := tickWith_next hu
      · exact raise s c _ hs
      · rw [hq] at hcommit
        exact commit w List.mem_cons_self _ s u hs hcommit
    rcases hend with ⟨-, rfl⟩ | ⟨-, hrest⟩
    · exact hPu
    · exact ih (fun w hw => commit w (.tail _ hw)) hwsd (tickWith_queue hq hwd hu) hPu hrest

/-- What raises and the committed ticks of an instruction's words keep, its meaning keeps (R116). -/
theorem exec_keeps {P : State → Prop} {i : Instr} {s t : State} (h : exec i s = .next t)
    (raise : ∀ s c q, P s → P (s.takeFatal c q))
    (commit : ∀ w ∈ i.microcode, ∀ q s t, P s → assertWord Ucode.reference w q s = .ok t → P t)
    (start : P { s with ir := i.operand, q := i.microcode }) : P t := by
  have hs := running_of_exec h
  rw [exec_eq_execute, execute_running hs] at h
  exact runTicks_words_keep raise commit (microcode_noDec i) rfl start h

@[simp] theorem State.reg_takeFatal (s : State) (c : FatalCondition) (q : List ControlWord) (r : Reg) :
    (s.takeFatal c q).reg r = s.reg r := by cases r <;> rfl

section
variable {i : Instr} {s t : State} (h : exec i s = .next t)
include h

/-- A register no word latches ends as the fetch left it (R30). -/
theorem exec_reg {r : Reg} (hr : i.asserts (.lat r) = false) :
    t.reg r = ({ s with ir := i.operand, q := i.microcode } : State).reg r := by
  refine exec_keeps (P := fun u => u.reg r = _) h (fun s c q hs => hs ▸ s.reg_takeFatal c q r) ?commit rfl
  intro w hw q s t hs ht
  rw [← hs, assertWord_not_latched (Instr.has_of_asserts hr w hw) ht, Instr.has_of_asserts i.asserts_pci w hw]
  simp

/-- Memory is kept when no word stores (R100). -/
theorem exec_mem (hi : i.asserts .memLat = false) : t.mem = s.mem :=
  exec_keeps (P := fun u => u.mem = s.mem) h (fun _ _ _ hs => hs)
    (fun w hw _ _ _ hs ht => (assertWord_keeps_mem (Instr.has_of_asserts hi w hw) ht).trans hs) rfl

/-- The sizes never change (R7, R35). -/
theorem exec_sizes : t.memCells = s.memCells ∧ t.nPorts = s.nPorts := by
  refine exec_keeps (P := fun u => u.memCells = s.memCells ∧ u.nPorts = s.nPorts) h (fun _ _ _ hs => hs) ?commit
    ⟨rfl, rfl⟩
  rintro w - q u v ⟨hcells, hports⟩ hv
  obtain ⟨bus, mem, ports, q', -, -, hwrite, -, rfl⟩ := assertWord_ok.1 hv
  exact ⟨hcells, (writePort_length hwrite).trans hports⟩

/-- `sum` is kept when no word latches A or B (R102). -/
theorem exec_sum (ha : i.asserts (.lat .a) = false) (hb : i.asserts (.lat .b) = false) : t.sum = s.sum := by
  refine exec_keeps (P := fun u => u.sum = s.sum) h (fun _ _ _ hs => hs) ?commit rfl
  intro w hw q u v hs hv
  rw [assertWord_sum hv, Instr.has_of_asserts ha w hw, Instr.has_of_asserts hb w hw]
  simpa using hs

/-- The Port Table is kept when no word writes a port (R101). -/
theorem exec_ports (hi : i.asserts .perLat = false) : t.ports = s.ports := by
  refine exec_keeps (P := fun u => u.ports = s.ports) h (fun _ _ _ hs => hs) ?commit rfl
  intro w hw q u v hs hv
  obtain ⟨bus, mem, ports, q', -, -, hwrite, -, rfl⟩ := assertWord_ok.1 hv
  rw [writePort, Instr.has_of_asserts hi w hw] at hwrite
  exact (Except.ok.inj hwrite).symm.trans hs

/-- The environment's values and their count are kept when no word queries a port (R216). -/
theorem exec_inputs (hi : i.asserts .perDrv = false) : t.inputs = s.inputs ∧ t.perReads = s.perReads := by
  refine exec_keeps (P := fun u => u.inputs = s.inputs ∧ u.perReads = s.perReads) h (fun _ _ _ hs => hs) ?commit
    ⟨rfl, rfl⟩
  intro w hw q u v hs hv
  obtain ⟨bus, mem, ports, q', -, -, -, -, rfl⟩ := assertWord_ok.1 hv
  simpa [inputsLeft, readsDone, Instr.has_of_asserts hi w hw] using hs

/-- The machine does not halt when no word has HLT (R106). -/
theorem exec_not_halted (hi : i.asserts .hlt = false) : t.halted = false := by
  refine exec_keeps (P := fun u => u.halted = false) h (fun _ _ _ hs => hs) ?commit (running_of_exec h).1
  intro w hw q u v hs hv
  obtain ⟨bus, mem, ports, q', -, -, -, -, rfl⟩ := assertWord_ok.1 hv
  simp [hs, Instr.has_of_asserts hi w hw]

/-- The history is kept when no word has a port signal or HLT and nothing is raised (R217, R219). -/
theorem exec_history (hdrv : i.asserts .perDrv = false) (hlat : i.asserts .perLat = false)
    (hhlt : i.asserts .hlt = false)
    (hfault : t.fault = none) : t.history = s.history := by
  refine exec_keeps (P := fun u => u.fault = none → u.history = s.history) h ?raise ?commit (fun _ => rfl) hfault
  case raise =>
    intro u c q _ hnone
    cases hnone
  case commit =>
    intro w hw q u v hs hv
    obtain ⟨bus, mem, ports, q', -, -, -, -, rfl⟩ := assertWord_ok.1 hv
    simpa [tickEvents, Instr.has_of_asserts hdrv w hw, Instr.has_of_asserts hlat w hw,
      Instr.has_of_asserts hhlt w hw] using hs

end

/-- Settles O35: the written registers are the latched ones (`Instr.asserts_lat`), and the others are kept
(`exec_reg`). -/
theorem registersOutsideTheWrittenOnesAreKept : Obligations.RegistersOutsideTheWrittenOnesAreKept := by
  unfold Obligations.RegistersOutsideTheWrittenOnesAreKept
  intro i s t h
  refine ⟨exec_reg (r := .ir) h i.asserts_lat_ir, fun r hir hr => ?_, exec_reg (r := .fl) h i.asserts_lat_fl⟩
  rw [exec_reg h (Instr.asserts_lat hr), s.reg_of_ne_ir _ _ hir]

/-- A store changes no cell but the one at its operand, and none when it raises (R54, R108). -/
theorem exec_st_read {i : Instr} {s t : State} {r : Reg} (h : exec i s = .next t) (hi : i.storeReg = some r) {n : Nat}
    (hn : n ≠ i.operand.toNat) : t.mem.read n = s.mem.read n := by
  have hs := running_of_exec h
  rcases Nat.lt_or_ge i.operand.toNat s.memCells with hopd | hopd
  · rw [exec_st hs hi hopd] at h
    cases h
    exact Memory.read_write_other _ _ hn
  · rw [exec_direct_raises hs (Instr.storeReg_microcode hi).2.1 hopd] at h
    cases h
    rfl

/-- Settles O36: only the stores have MEM_LAT (`exec_mem`), and a store writes one cell (`exec_st_read`). -/
theorem onlyStoresChangeMemory : Obligations.OnlyStoresChangeMemory := by
  unfold Obligations.OnlyStoresChangeMemory
  intro i s t h
  constructor
  · intro hi n
    rw [exec_mem h (by rw [i.asserts_memLat, hi]; rfl)]
  · intro r addr hi haddr n hn
    rw [(Instr.storeReg_microcode hi).2.1, Option.some.injEq] at haddr
    exact exec_st_read h hi (haddr ▸ hn)

/-- HLT, and no other instruction, sets the run flag (R36, R194). -/
theorem exec_halted_iff {i : Instr} {s t : State} (h : exec i s = .next t) :
    t.halted = true ↔ ∃ opd, i = .hlt opd := by
  constructor
  · intro ht
    by_contra hi
    rw [exec_not_halted h (Instr.asserts_hlt fun opd hopd => hi ⟨opd, hopd⟩)] at ht
    cases ht
  · rintro ⟨opd, rfl⟩
    rw [exec_hlt (running_of_exec h)] at h
    cases h
    rfl

/-- Settles O37: clause by clause, the signals that could change the field are in no word of the instruction. -/
theorem everythingElseIsKept : Obligations.EverythingElseIsKept := by
  unfold Obligations.EverythingElseIsKept
  intro i s t h
  obtain ⟨hcells, hports⟩ := exec_sizes h
  refine ⟨hcells, hports, ?sum, fun hi => exec_ports h (Instr.asserts_perLat hi),
    fun hi => exec_inputs h (Instr.asserts_perDrv hi), exec_halted_iff h, ?history⟩
  case sum => exact fun ⟨ha, hb⟩ => exec_sum h (Instr.asserts_lat ha) (Instr.asserts_lat hb)
  case history =>
    intro hi hfault
    exact exec_history h (Instr.asserts_perDrv fun opd => (hi opd).1) (Instr.asserts_perLat fun opd => (hi opd).2.1)
      (Instr.asserts_hlt fun opd => (hi opd).2.2) hfault

/-! ## Steps -/

/-- A step from a boundary that raises nothing ran the meaning of the instruction at PC (R116). -/
theorem exec_of_step {s t : State} {i : Instr} (hs : s.Idle) (h : step s = .next t) (ht : t.fault = none)
    (hi : decodeCells (opcodeCell s) (operandCell s) = .ok i) : exec i (afterFetch s i.microcode) = .next t := by
  rcases fetch_cases s with hpc | ⟨hpc, he⟩ | ⟨hpc, hpc1, ws, he⟩ | ⟨hpc, hpc1, -⟩
  · rw [step_raises_at_opcodeRead hs hpc] at h
    cases h
    cases ht
  · rw [step_raises_invalidOpcode hs hpc he] at h
    cases h
    cases ht
  · rw [step_raises_at_operandRead hs hpc hpc1 he] at h
    cases h
    cases ht
  · exact (step_eq_exec hs hpc hpc1 hi).symm.trans h

/-- Settles O38: the fetch advances PC by two, and only JMP latches it (`exec_jmp`, `Instr.asserts_lat_pc`). -/
theorem controlMovesOnUnlessJmp : Obligations.ControlMovesOnUnlessJmp := by
  unfold Obligations.ControlMovesOnUnlessJmp
  intro s t i hs h ht hi
  have hexec := exec_of_step hs h ht hi
  split
  next opd =>
    rw [exec_jmp (running_of_exec hexec)] at hexec
    cases hexec
    rfl
  next hjmp => exact exec_reg (r := .pc) hexec (Instr.asserts_lat_pc hjmp)

/-- Read after write, by cell addresses of 16 bits. -/
theorem Memory.read_write_word (m : Memory) (a b v : Word) :
    (m.write a.toNat v).read b.toNat = if a = b then v else m.read b.toNat := by
  rw [Memory.read_write]
  simp only [BitVec.toNat_inj, eq_comm]

/-- Settles O40: the step ends with the written memory (`exec_st`) and PC two cells on, where the next fetch reads. -/
theorem storeIsSeenByTheNextFetch : Obligations.StoreIsSeenByTheNextFetch := by
  unfold Obligations.StoreIsSeenByTheNextFetch
  rintro s i r v hs hpc hpc1 hi hr hopd rfl
  have hstep := (step_eq_exec hs hpc hpc1 hi).trans (exec_st (s := afterFetch s i.microcode) hs.1 hr hopd)
  have hreg : (afterFetch s i.microcode).reg r = s.reg r := by
    cases i <;> cases hr <;> rfl
  rw [hreg] at hstep
  refine ⟨_, hstep, ⟨hs.1, rfl⟩, rfl, rfl, Memory.read_write_word .., ?operand⟩
  case operand =>
    rw [← show s.pc + 2 + 1 = s.pc + 3 from BitVec.add_assoc ..]
    exact Memory.read_write_word ..

end Machine

end Sys2Proof
end

section
/-! PROOFS. Noninterference (R26, R29, R119, R177). Two machines that differ in a field no queued word reads before it
is written tick alike, so they step alike. -/

namespace Sys2Proof.Machine

/-! ## Two machines, tick by tick -/

/-- Two states on which the phases answer alike commit alike, but for what `f` changes. -/
theorem assertWord_map {rom : Ucode} {w : ControlWord} {q : List ControlWord} {s s' : State} {f : State → State}
    (hbus : driveBus w s' = driveBus w s) (hmem : ∀ bus, writeMemory w bus s' = writeMemory w bus s)
    (hports : ∀ bus, writePort w bus s' = writePort w bus s)
    (hdecode : ∀ bus, decodePoint rom w bus q s' = decodePoint rom w bus q s)
    (hcommit : ∀ bus mem ports q', committed w bus mem ports q q' s' = f (committed w bus mem ports q q' s)) :
    assertWord rom w q s' = (assertWord rom w q s).map f := by
  simp only [assertWord, hbus, hmem, hports, hdecode, hcommit]
  cases driveBus w s with
  | error c => rfl
  | ok bus =>
    cases hm : writeMemory w bus s with
    | error c => simp only [hm]; rfl
    | ok mem =>
      cases hp : writePort w bus s with
      | error c => simp only [hm, hp]; rfl
      | ok ports =>
        cases hd : decodePoint rom w bus q s with
        | error c => simp only [hm, hp, hd]; rfl
        | ok q' => simp only [hm, hp, hd]; rfl

/-- When the words of two machines commit alike but for `f`, their ticks raise the same condition or commit alike. -/
theorem tickWith_follow {rom : Ucode} {w : ControlWord} {q : List ControlWord} {s s' t : State} {f : State → State}
    (hq : s.q = w :: q) (hs' : s'.Running) (hq' : s'.q = w :: q)
    (hmap : assertWord rom w q s' = (assertWord rom w q s).map f) (h : tickWith rom s = .next t) :
    (∃ c, t = s.takeFatal c q ∧ tickWith rom s' = .next (s'.takeFatal c q)) ∨
      (assertWord rom w q s = .ok t ∧ tickWith rom s' = .next (f t)) := by
  obtain ⟨-, hw, hend⟩ := tickWith_next h
  rw [hq, popped_cons] at hw hend
  rcases hend with ⟨c, hraise, rfl⟩ | hcommit
  · exact .inl ⟨c, rfl, tickWith_of_raise hs' hq' hw (by rw [hmap, hraise]; rfl)⟩
  · exact .inr ⟨hcommit, tickWith_of_commit hs' hq' hw (by rw [hmap, hcommit]; rfl)⟩

section
variable {D : State → State → Prop} {R : List ControlWord → State → State → Prop}
  (stop : ∀ t t', D t t' → t'.stopped = t.stopped) (related : ∀ ws s s', R ws s s' → D s s')
  (tick : ∀ w ws s s' t, R (w :: ws) s s' → s.Running → s.q = w :: ws → tickWith Ucode.reference s = .next t →
    ∃ t', tickWith Ucode.reference s' = .next t' ∧ D t t' ∧ (t.Running → R ws t t'))
include stop related tick

/-- Runs of two machines related by what is queued differ at their end by `D` at most. -/
theorem runTicks_follow {ws : List ControlWord} {s s' t : State} (hd : Entry.noDec ws = true) (hs : s.Running)
    (hq : s.q = ws) (hR : R ws s s') (h : runTicks Ucode.reference ws.length s = .next t) :
    ∃ t', runTicks Ucode.reference ws.length s' = .next t' ∧ D t t' := by
  induction ws generalizing s s' with
  | nil => exact ⟨s', rfl, Host.Outcome.next.inj h ▸ related _ s s' hR⟩
  | cons w ws ih =>
    obtain ⟨hwd, hwsd⟩ : w.has .dec = false ∧ Entry.noDec ws = true := by simpa [Entry.noDec] using hd
    obtain ⟨u, hu, hend⟩ := runTicks_succ_next h
    obtain ⟨u', hu', hD, hrel⟩ := tick w ws s s' u hR hs hq hu
    rw [List.length_cons, runTicks, hu']
    simp only [stop u u' hD]
    rcases hend with ⟨hst, rfl⟩ | ⟨hrun, hrest⟩
    · exact ⟨u', by rw [hst]; rfl, hD⟩
    · rw [State.stopped_eq_false.2 hrun]
      exact ih hwsd hrun (tickWith_queue hq hwd hu) (hrel hrun) hrest

/-- Meanings from two related states differ at their end by `D` at most. -/
theorem exec_follow {i : Instr} {s s' t : State} (hs' : s'.Running)
    (hR : R i.microcode { s with ir := i.operand, q := i.microcode } { s' with ir := i.operand, q := i.microcode })
    (h : exec i s = .next t) : ∃ t', exec i s' = .next t' ∧ D t t' := by
  have hs := running_of_exec h
  rw [exec_eq_execute, execute_running hs] at h
  rw [exec_eq_execute, execute_running hs']
  exact runTicks_follow stop related tick (s := { s with ir := i.operand, q := i.microcode }) (microcode_noDec i) hs rfl
    hR h

end

/-! ## Two machines that fetch alike -/

/-- The two states have the same memory and PC, so they fetch the same instruction. -/
def SameCells (s s' : State) : Prop := s'.pc = s.pc ∧ s'.mem = s.mem ∧ s'.memCells = s.memCells

/-- All idle machines with the same memory and PC raise the same condition in their fetch, or run the same meaning. -/
theorem step_sameCells (s : State) :
    (∃ (g : Word → Word) (pc adr : Word) (c : FatalCondition) (q : List ControlWord), ∀ s', s'.Idle → SameCells s s' →
      step s' = .next ({ s' with ir := g s'.ir, pc := pc, adb := s'.adr, adr := adr }.takeFatal c q)) ∨
    (∃ i : Instr, ∀ s', s'.Idle → SameCells s s' → step s' = exec i (afterFetch s' i.microcode)) := by
  have hcell {s' : State} (h : SameCells s s') : opcodeCell s' = opcodeCell s ∧ operandCell s' = operandCell s := by
    obtain ⟨hpc, hmem, -⟩ := h
    simp only [opcodeCell, operandCell, hpc, hmem, and_self]
  rcases fetch_cases s with hr | ⟨hr, he⟩ | ⟨hr, hr1, ws, he⟩ | ⟨hr, hr1, i, hi⟩
  · refine .inl ⟨id, s.pc, s.pc, .addressError s.pc, Fetch.sequence.drop 3, fun s' hs' h => ?_⟩
    obtain ⟨hpc, hmem, hcells⟩ := h
    rw [step_raises_at_opcodeRead hs' (by rwa [hpc, hcells]), ← hpc]
    rfl
  · refine .inl ⟨id, s.pc, s.pc, .invalidOpcode s.pc (opcodeCell s), Fetch.sequence.drop 3, fun s' hs' h => ?_⟩
    have hop := (hcell h).1
    obtain ⟨hpc, hmem, hcells⟩ := h
    rw [step_raises_invalidOpcode hs' (by rwa [hpc, hcells]) (by rwa [hop]), hop, ← hpc]
    rfl
  · refine .inl ⟨fun _ => opcodeCell s, s.pc + 1, s.pc + 1, .addressError (s.pc + 1), Fetch.sequence.drop 5 ++ ws,
      fun s' hs' h => ?_⟩
    have hop := (hcell h).1
    obtain ⟨hpc, hmem, hcells⟩ := h
    rw [step_raises_at_operandRead (ws := ws) hs' (by rwa [hpc, hcells]) (by rwa [hpc, hcells]) (by rwa [hop]),
      hop, hpc]
  · refine .inr ⟨i, fun s' hs' h => ?_⟩
    obtain ⟨hop, hopd⟩ := hcell h
    obtain ⟨hpc, hmem, hcells⟩ := h
    exact step_eq_exec hs' (by rwa [hpc, hcells]) (by rwa [hpc, hcells]) (by rwa [hop, hopd])

/-! ## FL -/

/-- The registers driven by a word decide what it drives of a register. -/
theorem driveReg_congr {w : ControlWord} {s s' : State} (h : ∀ r, w.has (.drv r) = true → s'.reg r = s.reg r)
    (rs : List Reg) (rest : Word) : driveReg w s' rs rest = driveReg w s rs rest := by
  induction rs with
  | nil => rfl
  | cons r rs ih =>
    rw [driveReg, driveReg, ih]
    split
    next hr => exact h r hr
    next => rfl

/-- A word that neither drives nor latches FL does the same whatever FL holds (R29). -/
theorem assertWord_fl {rom : Ucode} {w : ControlWord} (hw : w.has (.drv .fl) = false ∧ w.has (.lat .fl) = false)
    (q : List ControlWord) (s : State) (v : Word) :
    assertWord rom w q { s with fl := v } = (assertWord rom w q s).map fun t => { t with fl := v } := by
  have hreg : ∀ r, w.has (.drv r) = true → ({ s with fl := v } : State).reg r = s.reg r := by
    intro r hr
    cases r
    case fl => rw [hw.1] at hr; cases hr
    all_goals rfl
  refine assertWord_map ?bus (fun _ => rfl) (fun _ => rfl) (fun _ => rfl) ?commit
  case bus =>
    simp only [driveBus, driveReg_congr hreg]
    rfl
  case commit =>
    intro bus mem ports q'
    simp only [committed, latched, hw.2]
    rfl

/-- A meaning does the same whatever FL holds (R29, R182, R183). -/
theorem exec_fl {i : Instr} {s t : State} (h : exec i s = .next t) (v : Word) :
    exec i { s with fl := v } = .next { t with fl := v } := by
  have hs := running_of_exec h
  suffices hfollow : ∃ t', exec i { s with fl := v } = .next t' ∧ t' = { t with fl := v } by
    obtain ⟨_, ht', rfl⟩ := hfollow
    exact ht'
  refine exec_follow (D := fun t t' => t' = { t with fl := v })
    (R := fun ws s s' => s' = { s with fl := v } ∧ ∀ w ∈ ws, IsRomWord w) ?stop ?related ?tick hs ?start h
  case stop => rintro t _ rfl; rfl
  case related => exact fun _ _ _ hR => hR.1
  case start => exact ⟨rfl, fun w hw => .inr ⟨_, Ucode.entry_mem (entry_microcode i), hw⟩⟩
  case tick =>
    rintro w ws s _ t ⟨rfl, hws⟩ hs hq ht
    have hrest : ∀ w ∈ ws, IsRomWord w := fun w hw => hws w (.tail _ hw)
    have hmap := assertWord_fl (rom := Ucode.reference) (hws w List.mem_cons_self).ignores_fl ws s v
    rcases tickWith_follow (s' := { s with fl := v }) hq hs hq hmap ht with ⟨c, rfl, ht'⟩ | ⟨-, ht'⟩
    · exact ⟨_, ht', rfl, fun _ => ⟨rfl, hrest⟩⟩
    · exact ⟨_, ht', rfl, fun _ => ⟨rfl, hrest⟩⟩

/-- The ticks of a running machine up to the boundary answer no fault (R205). -/
theorem runToBoundary_not_fault {rom : Ucode} {n : Nat} {s : State} (hs : s.Running) {r : Fault} :
    runToBoundary rom n s ≠ .fault r := by
  induction n generalizing s with
  | zero => exact nofun
  | succ n ih =>
    rw [runToBoundary]
    cases ht : tickWith rom s with
    | fault r' => exact absurd ht (tickWith_not_fault hs)
    | refused r' => exact nofun
    | next t =>
      simp only
      split
      next => exact nofun
      next hgo =>
        simp only [Bool.or_eq_true, not_or, Bool.not_eq_true] at hgo
        exact ih (State.stopped_eq_false.1 hgo.1)

/-- Only a stopped machine answers a fault (R205, R222). -/
theorem stopReason_of_step_fault {s : State} {r : Fault} (h : step s = .fault r) : s.stopReason = some r := by
  cases hr : s.stopReason with
  | none =>
    have hs := State.stopReason_eq_none.1 hr
    obtain ⟨n, -, hticks⟩ := step_eq_runToBoundary hs
    exact absurd (hticks ▸ h) (runToBoundary_not_fault hs)
  | some r' =>
    rw [step_stopped hr] at h
    rw [Host.Outcome.fault.inj h]

/-- Settles O47: the fetch of two machines that differ in FL alone goes alike (`step_sameCells`), and so does the
meaning (`exec_fl`). -/
theorem flagsAreNeverConsulted : Obligations.FlagsAreNeverConsulted := by
  unfold Obligations.FlagsAreNeverConsulted
  intro s v hq
  refine ⟨fun t h => ?_, fun r h => ?fault⟩
  case fault =>
    have hr := stopReason_of_step_fault h
    exact step_stopped (s := { s with fl := v }) hr
  have hs : s.Idle := ⟨running_of_step h, hq⟩
  have hs' : ({ s with fl := v } : State).Idle := hs
  rcases step_sameCells s with ⟨g, pc, adr, c, q, hraise⟩ | ⟨i, hexec⟩
  · rw [hraise s hs ⟨rfl, rfl, rfl⟩] at h
    cases h
    exact hraise _ hs' ⟨rfl, rfl, rfl⟩
  · rw [hexec s hs ⟨rfl, rfl, rfl⟩] at h
    rw [hexec _ hs' ⟨rfl, rfl, rfl⟩]
    exact exec_fl h v

/-! ## The ALU's latch -/

/-- A word without ALU_EN does the same whatever `sum` holds, and keeps it unless it recomputes it (R102, R103). -/
theorem assertWord_no_aluEn {rom : Ucode} {w : ControlWord} (hw : w.has .aluEn = false) (q : List ControlWord)
    (s : State) (v : Word) : assertWord rom w q { s with sum := v } =
      (assertWord rom w q s).map fun t => { t with sum := if w.latchesOperand then t.sum else v } := by
  refine assertWord_map ?bus (fun _ => rfl) (fun _ => rfl) (fun _ => rfl) ?commit
  case bus =>
    simp only [driveBus, hw]
    rfl
  case commit =>
    intro bus mem ports q'
    cases hl : w.latchesOperand <;> simp only [committed, recomputed, hl] <;> rfl

/-- The states differ in `sum` at most, and then no queued word has ALU_EN before one recomputes it (R113 c). -/
def SumDead (ws : List ControlWord) (s s' : State) : Prop :=
  ∃ v, s' = { s with sum := v } ∧ (v = s.sum ∨ Entry.lookaheadOk false ws = true)

/-- A tick of two machines that differ in a dead `sum` leaves two such machines (R102, R113 c, R119). -/
theorem tickWith_sumDead {w : ControlWord} {ws : List ControlWord} {s s' t : State} (h : SumDead (w :: ws) s s')
    (hs : s.Running) (hq : s.q = w :: ws) (ht : tickWith Ucode.reference s = .next t) :
    ∃ t', tickWith Ucode.reference s' = .next t' ∧ (∃ v, t' = { t with sum := v }) ∧ (t.Running → SumDead ws t t') := by
  obtain ⟨v, rfl, rfl | hlook⟩ := h
  · exact ⟨t, ht, ⟨t.sum, rfl⟩, fun _ => ⟨t.sum, rfl, .inl rfl⟩⟩
  · simp only [Entry.lookaheadOk, Bool.or_false, Bool.and_eq_true, Bool.not_eq_true', Bool.or_eq_false_iff] at hlook
    obtain ⟨⟨halu, -⟩, hrest⟩ := hlook
    have hmap := assertWord_no_aluEn (rom := Ucode.reference) halu ws s v
    rcases tickWith_follow (s' := { s with sum := v }) hq hs hq hmap ht with ⟨c, rfl, ht'⟩ | ⟨-, ht'⟩
    · exact ⟨_, ht', ⟨v, rfl⟩, fun hrun => by cases hrun.2⟩
    · refine ⟨_, ht', ⟨_, rfl⟩, fun _ => ⟨_, rfl, ?_⟩⟩
      cases hl : w.latchesOperand with
      | true => exact .inl rfl
      | false => exact .inr (hl ▸ hrest)

/-- ALU_EN and SUB stand behind a latch of A or B in every instruction's microcode (R113 c, R118). -/
theorem microcode_lookaheadOk (i : Instr) : Entry.lookaheadOk false i.microcode = true := by
  have hwf := Ucode.wf_row referenceRomIsWellFormed.1 (Ucode.entry_mem (entry_microcode i))
  simp only [Entry.wf, Bool.and_eq_true] at hwf
  exact hwf.2

/-- A meaning ends alike but for `sum`, whatever `sum` held before (R119, R177). -/
theorem exec_sumDead {i : Instr} {s t : State} (h : exec i s = .next t) (v : Word) :
    ∃ u, exec i { s with sum := v } = .next { t with sum := u } := by
  have hs := running_of_exec h
  suffices hfollow : ∃ t', exec i { s with sum := v } = .next t' ∧ ∃ u, t' = { t with sum := u } by
    obtain ⟨_, ht', u, rfl⟩ := hfollow
    exact ⟨u, ht'⟩
  refine exec_follow (D := fun t t' => ∃ u, t' = { t with sum := u }) (R := SumDead) ?stop ?related
    (fun _ _ _ _ _ => tickWith_sumDead) hs ⟨v, rfl, .inr (microcode_lookaheadOk i)⟩ h
  case stop => rintro t _ ⟨u, rfl⟩; rfl
  case related => exact fun _ _ _ ⟨v, hv, _⟩ => ⟨v, hv⟩

/-- Settles O48: the fetch neither reads nor writes `sum` (`step_sameCells`), and every entry recomputes it before it
reads it (`exec_sumDead`). -/
theorem sumIsDeadAtBoundaries : Obligations.SumIsDeadAtBoundaries := by
  unfold Obligations.SumIsDeadAtBoundaries
  intro s t v hq h
  have hs : s.Idle := ⟨running_of_step h, hq⟩
  have hs' : ({ s with sum := v } : State).Idle := hs
  rcases step_sameCells s with ⟨g, pc, adr, c, q, hraise⟩ | ⟨i, hexec⟩
  · rw [hraise s hs ⟨rfl, rfl, rfl⟩] at h
    cases h
    exact ⟨v, hraise _ hs' ⟨rfl, rfl, rfl⟩⟩
  · rw [hexec s hs ⟨rfl, rfl, rfl⟩] at h
    rw [hexec _ hs' ⟨rfl, rfl, rfl⟩]
    exact exec_sumDead h v

/-! ## ADB and IR -/

/-- The fetch overwrites ADB, so no step reads what it held (R26, R110). -/
theorem step_adb {s : State} (hs : s.Idle) (v : Word) : step { s with adb := v } = step s := by
  have hs' : ({ s with adb := v } : State).Idle := hs
  rcases step_sameCells s with ⟨g, pc, adr, c, q, hraise⟩ | ⟨i, hexec⟩
  · rw [hraise s hs ⟨rfl, rfl, rfl⟩, hraise _ hs' ⟨rfl, rfl, rfl⟩]
  · rw [hexec s hs ⟨rfl, rfl, rfl⟩, hexec _ hs' ⟨rfl, rfl, rfl⟩]
    rfl

/-- From an opcode on, the fetch overwrites IR (R110, R246). -/
theorem step_ir {s : State} (hs : s.Idle) (hpc : s.pc.toNat < s.memCells) (hop : IsOpcode (opcodeCell s)) (x : Word) :
    step { s with ir := x } = step s := by
  have hs' : ({ s with ir := x } : State).Idle := hs
  obtain ⟨ws, he⟩ := Option.ne_none_iff_exists'.1 fun he => reference_entry_eq_none.1 he hop
  rcases Nat.lt_or_ge (s.pc + 1).toNat s.memCells with hpc1 | hpc1
  · obtain ⟨i, hi, -⟩ := decodes_of_entry (opd := operandCell s) he
    rw [step_eq_exec hs hpc hpc1 hi, step_eq_exec hs' hpc hpc1 hi]
    rfl
  · rw [step_raises_at_operandRead hs hpc hpc1 he, step_raises_at_operandRead hs' hpc hpc1 he]
    rfl

/-- Settles O49: a stopped machine answers its reason; a running one overwrites ADB (`step_adb`) and IR (`step_ir`). -/
theorem fetchForgetsIrAndAdb : Obligations.FetchForgetsIrAndAdb := by
  unfold Obligations.FetchForgetsIrAndAdb
  intro s v x hq
  cases hr : s.stopReason with
  | some r =>
    rw [step_stopped hr]
    exact ⟨step_stopped (s := { s with adb := v }) hr, fun _ _ => step_stopped (s := { s with ir := x, adb := v }) hr⟩
  | none =>
    have hs : s.Idle := ⟨State.stopReason_eq_none.1 hr, hq⟩
    refine ⟨step_adb hs v, fun hpc hop => ?_⟩
    exact (step_adb (s := { s with ir := x }) hs v).trans (step_ir hs hpc hop x)

end Sys2Proof.Machine
end

section
/-! PROOFS. Reset and load (R41, R83, R233 to R237): what a load rejects, and where the bytes of an image come to
stand. -/

namespace Sys2Proof.Machine

/-- Settles O50: the fields of `State.start`. -/
theorem resetStateIsTheTable : Obligations.ResetStateIsTheTable := by
  unfold Obligations.ResetStateIsTheTable
  refine ⟨?_, rfl⟩
  rintro n p m pc s rfl
  refine ⟨rfl, fun r hr => ?_, rfl, rfl, rfl, rfl, rfl, List.length_replicate, fun v hv => ?_, rfl, rfl⟩
  · cases r
    case pc => exact absurd rfl hr
    all_goals rfl
  · exact List.eq_of_mem_replicate hv

/-! ## What a load answers -/

/-- With sizes in range a load is the header check (R7, R234). -/
theorem load_eq_loadBytes {n p : Nat} (h2 : 2 ≤ n) (hn : n ≤ 65536) (hp : p ≤ 65536) (img : List Byte) :
    load (some img) n p = loadBytes n p img := by
  have hok : parametersOk n p = true := by
    simp [parametersOk, Config.minMemCells, Config.maxMemCells, Config.maxPorts, h2, hn, hp]
  rw [load, if_pos hok]

/-- An image of fewer than four bytes is too short (R234). -/
theorem loadBytes_tooShort {n p : Nat} {img : List Byte} (h : img.length < 4) :
    loadBytes n p img = .error .tooShort := by
  unfold loadBytes
  split
  next =>
    simp only [List.length_cons] at h
    omega
  next => rfl

/-- The two marker bytes are those of 148, low byte first (R83). -/
theorem cellOfBytes_eq_marker {m0 m1 : Byte} : cellOfBytes m0 m1 = imageMarker ↔ [m0, m1] = [0x94, 0x00] := by
  constructor
  · intro h
    rw [← bytesOfCell_cellOfBytes, h]
    rfl
  · intro h
    cases h
    rfl

/-- Settles O51: the load by the length, the marker and the parity of the image, in that order. -/
theorem loadRejectsMalformedImages : Obligations.LoadRejectsMalformedImages := by
  unfold Obligations.LoadRejectsMalformedImages
  intro n p h2 hn hp
  refine ⟨rfl, fun img => ?_⟩
  rw [load_eq_loadBytes h2 hn hp]
  refine ⟨loadBytes_tooShort, ?_⟩
  match img with
  | [] | [_] | [_, _] | [_, _, _] => simp
  | m0 :: m1 :: e0 :: e1 :: body =>
    have htake : (m0 :: m1 :: e0 :: e1 :: body).take 2 = [m0, m1] := rfl
    have hparity : (m0 :: m1 :: e0 :: e1 :: body).length % 2 = body.length % 2 := by
      simp only [List.length_cons]
      omega
    rw [htake, hparity, Ne, ← cellOfBytes_eq_marker]
    refine ⟨fun _ hm => ?_, fun _ hm hodd => ?_, fun _ hm heven => ?_⟩
    · rw [loadBytes, if_pos hm]
    · rw [loadBytes, if_neg (not_not_intro hm), if_pos hodd]
    · exact ⟨_, by rw [loadBytes, if_neg (not_not_intro hm), if_neg (by omega)]⟩

/-- What an image that loads looks like, and the machine it gives (R83, R235 to R237). -/
theorem load_ok {img : List Byte} {n p : Nat} {s : State} (h : load (some img) n p = .ok s) :
    parametersOk n p = true ∧ ∃ m0 m1 e0 e1 body, img = m0 :: m1 :: e0 :: e1 :: body ∧
      s = State.start n p (memInit n body) (pcReset (cellOfBytes e0 e1)) := by
  rw [load] at h
  split at h
  next hok =>
    refine ⟨hok, ?_⟩
    unfold loadBytes at h
    split at h
    next m0 m1 e0 e1 body =>
      split at h
      next => cases h
      next =>
        split at h
        next => cases h
        next => exact ⟨m0, m1, e0, e1, body, rfl, (Except.ok.inj h).symm⟩
    next => cases h
  next => cases h

/-! ## The memory of an image body -/

theorem memoryOfCells_cons (size n : Nat) (v : Word) (cells : List Word) :
    memoryOfCells size n (v :: cells) =
      if n < size ∧ v ≠ Memory.unlisted then (n, v) :: memoryOfCells size (n + 1) cells
      else memoryOfCells size (n + 1) cells := rfl

/-- The cell at `a` of the memory that holds `cells` from `n` up, below `size` (R235, R236). -/
theorem memoryOfCells_read (size a : Nat) (cells : List Word) (n : Nat) :
    (memoryOfCells size n cells).read a = if n ≤ a ∧ a < size then cells.getD (a - n) 0 else 0 := by
  induction cells generalizing n with
  | nil => simp [memoryOfCells, Memory.unlisted]
  | cons v cells ih =>
    rw [memoryOfCells_cons]
    rcases eq_or_ne n a with rfl | hne
    · have hrest : (memoryOfCells size (n + 1) cells).read n = 0 := by
        rw [ih, if_neg (by omega)]
      split
      next hlisted => simp [Memory.read_cons, hlisted.1]
      next hunlisted =>
        rw [hrest, Nat.sub_self, List.getD_cons_zero]
        split
        next hn => exact (not_not.1 fun hv => hunlisted ⟨hn.2, hv⟩).symm
        next => rfl
    · have hrest : (memoryOfCells size (n + 1) cells).read a =
          if n ≤ a ∧ a < size then (v :: cells).getD (a - n) 0 else 0 := by
        rw [ih]
        rcases Nat.lt_or_ge a n with hlt | hge
        · rw [if_neg (by omega), if_neg (by omega)]
        · rw [show a - n = a - (n + 1) + 1 by omega, List.getD_cons_succ]
          congr 1
          simp only [eq_iff_iff]
          omega
      split
      next => rw [Memory.read_cons, if_neg hne, hrest]
      next => exact hrest

/-- The memory that holds a list of cells lists rising addresses from `n` up, below `size`, and no zero (R34). -/
theorem memoryOfCells_ok (size : Nat) (cells : List Word) (n : Nat) :
    MemoryOk size (memoryOfCells size n cells) ∧ ∀ c ∈ memoryOfCells size n cells, n ≤ c.1 := by
  induction cells generalizing n with
  | nil => exact ⟨⟨Memory.nil_wf, nofun⟩, nofun⟩
  | cons v cells ih =>
    obtain ⟨⟨⟨hrising, hlisted⟩, hbound⟩, hfrom⟩ := ih (n + 1)
    rw [memoryOfCells_cons]
    split
    next h =>
      refine ⟨⟨⟨List.pairwise_cons.2 ⟨hfrom, hrising⟩, ?_⟩, ?_⟩, ?_⟩ <;> rw [List.forall_mem_cons]
      · exact ⟨h.2, hlisted⟩
      · exact ⟨h.1, hbound⟩
      · exact ⟨le_rfl, fun c hc => Nat.le_of_succ_le (hfrom c hc)⟩
    next => exact ⟨⟨⟨hrising, hlisted⟩, hbound⟩, fun c hc => Nat.le_of_succ_le (hfrom c hc)⟩

/-- Cell `a` of an image body is its bytes `2a` and `2a + 1`, low byte first (R55, R235). -/
theorem bodyCells_getD (body : List Byte) (a : Nat) :
    ((bodyCells body).getD a 0).toNat =
      if 2 * a + 1 < body.length then (body.getD (2 * a) 0).toNat + 256 * (body.getD (2 * a + 1) 0).toNat else 0 := by
  induction body using bodyCells.induct generalizing a with
  | case1 lo hi rest ih =>
    cases a with
    | zero => simp [bodyCells, cellOfBytes_toNat]
    | succ a =>
      rw [bodyCells, List.getD_cons_succ, ih, show 2 * (a + 1) = 2 * a + 1 + 1 by omega]
      simp only [List.getD_cons_succ, List.length_cons, Nat.add_lt_add_iff_right]
  | case2 body h =>
    match body with
    | [] => simp [bodyCells]
    | [b] => simp [bodyCells]
    | lo :: hi :: rest => exact absurd rfl (h lo hi rest)

/-- The loaded memory: cell `a` below the size is the body's bytes `2a` and `2a + 1`, or 0 beyond them (R235, R236). -/
theorem memInit_read {n a : Nat} (ha : a < n) (body : List Byte) :
    ((memInit n body).read a).toNat =
      if 2 * a + 1 < body.length then (body.getD (2 * a) 0).toNat + 256 * (body.getD (2 * a + 1) 0).toNat else 0 := by
  rw [memInit, memoryOfCells_read, if_pos ⟨a.zero_le, ha⟩, Nat.sub_zero, bodyCells_getD]

/-- The same by the bytes of the image, whose four header bytes are not in memory (R83, R235; D14). -/
theorem memInit_read_image {n a : Nat} (ha : a < n) (m0 m1 e0 e1 : Byte) (body : List Byte) :
    ((memInit n body).read a).toNat =
      if 5 + 2 * a < (m0 :: m1 :: e0 :: e1 :: body).length then
        ((m0 :: m1 :: e0 :: e1 :: body).getD (4 + 2 * a) 0).toNat +
          256 * ((m0 :: m1 :: e0 :: e1 :: body).getD (5 + 2 * a) 0).toNat
      else 0 := by
  rw [memInit_read ha, show 4 + 2 * a = 2 * a + 4 by omega, show 5 + 2 * a = 2 * a + 1 + 4 by omega]
  simp only [List.getD_cons_succ, List.length_cons, Nat.add_lt_add_iff_right]

/-- Settles O52: the memory is that of the body's cells, each its two bytes (`memInit_read_image`). -/
theorem loadPlacesTheBodyFromCellZero : Obligations.LoadPlacesTheBodyFromCellZero := by
  unfold Obligations.LoadPlacesTheBodyFromCellZero
  intro img n p s h
  obtain ⟨-, m0, m1, e0, e1, body, rfl, rfl⟩ := load_ok h
  refine ⟨rfl, List.length_replicate, ⟨⟨rfl, rfl⟩, rfl⟩, fun a ha => memInit_read_image ha m0 m1 e0 e1 body, ?beyond⟩
  case beyond => exact fun a ha => (memoryOfCells_read ..).trans (if_neg (by omega))

/-- PC after a load is two less than the header's entry point, modulo 2^16 (R237; D14). -/
theorem pcReset_toNat (entry : Word) : (pcReset entry).toNat = (entry.toNat + 65534) % 65536 := by
  rw [pcReset, BitVec.toNat_sub, Nat.add_comm]
  rfl

/-- Settles O53: PC is the entry point less two (`pcReset_toNat`), and the cell there is the image's bytes from twice
the entry point on (`memInit_read_image`). -/
theorem firstFetchReadsByteOffsetTwiceTheEntry : Obligations.FirstFetchReadsByteOffsetTwiceTheEntry := by
  unfold Obligations.FirstFetchReadsByteOffsetTwiceTheEntry
  intro img n p e s h he
  obtain ⟨-, m0, m1, e0, e1, body, rfl, rfl⟩ := load_ok h
  have hentry : (cellOfBytes e0 e1).toNat = e := (cellOfBytes_toNat e0 e1).trans he.symm
  have hpc := pcReset_toNat (cellOfBytes e0 e1)
  rw [hentry] at hpc
  refine ⟨hpc, fun h2 hcell hbytes => ?_⟩
  have hlt : e < 65536 := hentry ▸ (cellOfBytes e0 e1).isLt
  have hcellPc : (pcReset (cellOfBytes e0 e1)).toNat = e - 2 := by omega
  have hread := memInit_read_image hcell m0 m1 e0 e1 body
  rw [show 4 + 2 * (e - 2) = 2 * e by omega, show 5 + 2 * (e - 2) = 2 * e + 1 by omega, if_pos hbytes,
    ← hcellPc] at hread
  exact hread

/-- Settles O55: a load checks the sizes (`load_ok`), and the memory it builds is canonical (`memoryOfCells_ok`). -/
theorem loadedMachineMeetsTheInvariant : Obligations.LoadedMachineMeetsTheInvariant := by
  unfold Obligations.LoadedMachineMeetsTheInvariant
  intro img n p s h
  obtain ⟨hok, m0, m1, e0, e1, body, -, rfl⟩ := load_ok h
  simp only [parametersOk, Bool.and_eq_true, decide_eq_true_eq] at hok
  exact State.start_inv (memoryOfCells_ok n (bodyCells body) 0).1 hok.1 hok.2

/-! ## A loaded program -/

/-- The cells of a program are each instruction's opcode and operand (R70, R83). -/
theorem bodyCells_program (body : List Instr) :
    bodyCells (body.flatMap encodeBytes) = body.flatMap fun i => [i.opcode, i.operand] := by
  induction body with
  | nil => rfl
  | cons i body ih =>
    rw [List.flatMap_cons, List.flatMap_cons, ← ih]
    simp [encodeBytes, bytesOfCell, bodyCells]

/-- A program has four bytes an instruction (R70). -/
theorem program_length (body : List Instr) : (body.flatMap encodeBytes).length = 4 * body.length := by
  induction body with
  | nil => rfl
  | cons i body ih =>
    rw [List.flatMap_cons, List.length_append, ih, List.length_cons, Nat.mul_succ, Nat.add_comm]
    rfl

/-- Instruction `k` of a program stands in its cells `2k` and `2k + 1` (R70, R85). -/
theorem program_cells {body : List Instr} {k : Nat} {i : Instr} (h : body[k]? = some i) :
    (bodyCells (body.flatMap encodeBytes)).getD (2 * k) 0 = i.opcode ∧
      (bodyCells (body.flatMap encodeBytes)).getD (2 * k + 1) 0 = i.operand := by
  rw [bodyCells_program]
  induction body generalizing k with
  | nil => cases h
  | cons j body ih =>
    cases k with
    | zero =>
      cases h
      exact ⟨rfl, rfl⟩
    | succ k => exact ih (k := k) h

/-- The same of the loaded memory, when the program fits (R235). -/
theorem memInit_program {body : List Instr} {k n : Nat} {i : Instr} (hfits : 2 * body.length ≤ n)
    (h : body[k]? = some i) :
    (memInit n (body.flatMap encodeBytes)).read (2 * k) = i.opcode ∧
      (memInit n (body.flatMap encodeBytes)).read (2 * k + 1) = i.operand := by
  have hk : k < body.length := (List.getElem?_eq_some_iff.1 h).1
  rw [memInit, memoryOfCells_read, memoryOfCells_read, if_pos (by omega), if_pos (by omega)]
  exact program_cells h

/-- The image of a program loads into any machine with sizes in range (R83, R234 to R237). -/
theorem load_imageOf {n p : Nat} (h2 : 2 ≤ n) (hn : n ≤ 65536) (hp : p ≤ 65536) (entry : Word) (body : List Instr) :
    load (some (imageOf entry body)) n p =
      .ok (State.start n p (memInit n (body.flatMap encodeBytes)) (pcReset entry)) := by
  rw [load_eq_loadBytes h2 hn hp]
  have himage : imageOf entry body = imageMarker.extractLsb' 0 8 :: imageMarker.extractLsb' 8 8 ::
      entry.extractLsb' 0 8 :: entry.extractLsb' 8 8 :: body.flatMap encodeBytes := rfl
  rw [himage, loadBytes, cellOfBytes_bytes, cellOfBytes_bytes, if_neg (not_not_intro rfl), program_length,
    if_neg (by omega)]

/-- The entry point of instruction `k` puts PC at its two cells (R85, R237). -/
theorem pcReset_entryOf {k : Nat} (hk : 2 * k + 2 < 65536) :
    (pcReset (entryOf k)).toNat = 2 * k ∧ (pcReset (entryOf k) + 1).toNat = 2 * k + 1 := by
  have hpc : (pcReset (entryOf k)).toNat = 2 * k := by
    rw [pcReset_toNat, entryOf, BitVec.toNat_ofNat]
    omega
  refine ⟨hpc, ?_⟩
  rw [BitVec.toNat_add, hpc]
  exact Nat.mod_eq_of_lt (show 2 * k + 1 < 2 ^ 16 by omega)

/-- Settles O54: the image loads (`load_imageOf`), PC and PC + 1 are the cells of instruction `k` (`pcReset_entryOf`,
`program_cells`), and the step runs it (`step_eq_exec`). -/
theorem loadedProgramStartsAtItsEntry : Obligations.LoadedProgramStartsAtItsEntry := by
  unfold Obligations.LoadedProgramStartsAtItsEntry
  intro body k n p i hbody h2 hn hp hk hi
  refine ⟨_, load_imageOf h2 hn hp (entryOf k) body, ?_⟩
  obtain ⟨hpc, hpc1⟩ := pcReset_entryOf hk
  have hlt : k < body.length := (List.getElem?_eq_some_iff.1 hi).1
  have hcell : 2 * k < n ∧ 2 * k + 1 < n := by omega
  obtain ⟨hop, hopd⟩ := memInit_program hbody hi
  rw [← hpc] at hop
  rw [← hpc1] at hopd
  generalize memInit n (body.flatMap encodeBytes) = m at hop hopd ⊢
  have hidle : (State.start n p m (pcReset (entryOf k))).Idle := ⟨⟨rfl, rfl⟩, rfl⟩
  have hstep := step_eq_exec hidle (hpc.trans_lt hcell.1) (hpc1.trans_lt hcell.2) (decodeCells_ok.2 ⟨hop, hopd⟩)
  rw [hstep, ← hopd]
  rfl

end Sys2Proof.Machine
end
